-- ==== Sys2Proof/Word.lean ====
section
/-! DEFINITION. The two word widths of the hardware (spec/00_scope.md R3, R8). -/

namespace Sys2Proof

/-- A memory byte, and the width of `sp`, `a`, `x`, `y`, `p` (`XLEN_DATA`, R3). -/
abbrev Byte := BitVec 8

/-- An address, and the width of `pc` (`XLEN_ADDR`, R3). -/
abbrev Addr := BitVec 16

end Sys2Proof
end

