-- ==== Sys2Proof/Config.lean ====
section
/-! DEFINITION. The parameters of the hardware (spec/00_scope.md R1, R3): the fixed ones, the open and
unused ones as opaque constants, and the register values `State.reset` starts from. -/

namespace Sys2Proof.Config

/-- The identity string (00_scope.md R1, 92_eei_decisions.md D23). -/
def identity : String := "n_e_s-core/6502-subset7"

/-- The number of byte cells of the one address space (00_scope.md R3, 20_memory.md R30). -/
def addressSpace : Nat := 65536

/-- The total cycle count of every implied or accumulator entry: one fetch cycle and one commit cycle
(00_scope.md R3, 30_encoding.md R55). -/
def fixedCycles : Nat := 2

/-- `STACK_PAGE`: the page `sp` offsets into; open, and used by no rule (10_state.md R12, D11). Log 9. -/
opaque stackPage : Byte

/-- `RESET_VECTOR`: open, and used by no rule: the core reads no vector (70_reset_and_hazards.md R112,
D10). Log 9. -/
opaque resetVector : Addr

/-! `INIT_REGS` is the host's to choose (10_state.md R28, D9); the spec gives no value. DESIGN CHOICE, unsafe
(log 1): `State.reset` starts from these zeros. `State.resetWith` takes any six values. -/

def initPc : Addr := 0
def initSp : Byte := 0
def initA : Byte := 0
def initX : Byte := 0
def initY : Byte := 0
def initP : Byte := 0

end Sys2Proof.Config
end

