-- ==== Sys2Proof/Syntax.lean ====
section
/-! DEFINITION. The seven instructions, the registers and flags they name, and what a dispatch-table entry
holds (spec/00_scope.md R2, spec/30_encoding.md R50 to R55). -/

namespace Sys2Proof

/-- The instruction set: exactly seven, none with an operand field (R2, R52), in the table's order. -/
inductive Instr where
  | clc   -- Clear-Carry
  | sec   -- Set-Carry
  | lsrA  -- Logical-Shift-Right-Accumulator
  | cld   -- Clear-Decimal
  | inx   -- Increment-X
  | nop   -- No-op
  | sed   -- Set-Decimal
deriving DecidableEq, Repr

/-- The two addressing modes (R51): neither fetches an operand byte. -/
inductive AddrMode where
  | implied
  | accumulator
deriving DecidableEq, Repr

/-- The five 8-bit registers of the aggregate (10_state.md R10); `pc` is the one 16-bit register. -/
inductive Reg8 where
  | sp | a | x | y | p
deriving DecidableEq, Repr

/-- The eight flags of `p` (10_state.md R15); `U` is bit 5. -/
inductive Flag where
  | N | V | U | B | D | I | Z | C
deriving DecidableEq, Repr

/-- A dispatch-table entry: instruction semantics, addressing mode, total cycle count
(10_state.md R27). The semantics are named by the instruction; `Machine.exec` gives them. -/
structure Entry where
  handler : Instr
  mode    : AddrMode
  cycles  : Nat
deriving DecidableEq, Repr

/-- The addressing mode of each instruction (R51, R54). -/
def Instr.mode : Instr → AddrMode
  | .clc  => .implied
  | .sec  => .implied
  | .lsrA => .accumulator
  | .cld  => .implied
  | .inx  => .implied
  | .nop  => .implied
  | .sed  => .implied

/-- The document's own name of each instruction (R2, R54). -/
def Instr.documentName : Instr → String
  | .clc  => "Clear-Carry"
  | .sec  => "Set-Carry"
  | .lsrA => "Logical-Shift-Right-Accumulator"
  | .cld  => "Clear-Decimal"
  | .inx  => "Increment-X"
  | .nop  => "No-op"
  | .sed  => "Set-Decimal"

end Sys2Proof
end

