-- ==== Sys2Proof/WellFormed.lean ====
section
/-! DEFINITION. Well-formedness of instructions, of dispatch-table entries and of a whole table
(spec/30_encoding.md R50 to R55). -/

namespace Sys2Proof

/-- Well-formedness of an instruction. No instruction has an immediate, a displacement, an address or a
register number (R52), so there is no field that could be out of range. -/
def Instr.wf : Instr → Bool
  | .clc  => true
  | .sec  => true
  | .lsrA => true
  | .cld  => true
  | .inx  => true
  | .nop  => true
  | .sed  => true

/-- An entry is well formed when its mode is its instruction's (R51) and its cycle count is the fixed one of
the implied and accumulator modes (R55). -/
def Entry.wf (e : Entry) : Bool :=
  e.handler.wf && e.mode == e.handler.mode && e.cycles == Config.fixedCycles

/-- A table is well formed when every entry is and no opcode byte has two entries (R54: "each a distinct fixed
byte"). -/
def tableWf (t : List (Byte × Entry)) : Bool :=
  t.all (fun r => r.2.wf) && decide (t.map Prod.fst).Nodup

end Sys2Proof
end

