-- ==== Sys2Proof/Decode.lean ====
section
/-! DEFINITION. The opcode dispatch table, the decoder (an exact lookup on the whole byte), and the encoder
(spec/30_encoding.md R50 to R56). -/

namespace Sys2Proof

/-- Why the decoder gives no instruction. -/
inductive DecodeReject where
  /-- the byte has no dispatch-table entry (R56): the fetch cycle raises InvalidOpcode for it -/
  | noEntry (b : Byte)
  /-- there is no byte to decode -/
  | noByte
deriving DecidableEq, Repr

/-- The dispatch table (R55), immutable (10_state.md R27). The byte values are the spec's decision D3 (log 7). -/
def dispatchTable : List (Byte × Entry) :=
  [ (0x18#8, { handler := .clc,  mode := .implied,     cycles := 2 }),
    (0x38#8, { handler := .sec,  mode := .implied,     cycles := 2 }),
    (0x4A#8, { handler := .lsrA, mode := .accumulator, cycles := 2 }),
    (0xD8#8, { handler := .cld,  mode := .implied,     cycles := 2 }),
    (0xE8#8, { handler := .inx,  mode := .implied,     cycles := 2 }),
    (0xEA#8, { handler := .nop,  mode := .implied,     cycles := 2 }),
    (0xF8#8, { handler := .sed,  mode := .implied,     cycles := 2 }) ]

/-- The lookup of a byte in a table: an exact match on all eight bits (R53). -/
def lookupIn : List (Byte × Entry) → Byte → Option Entry
  | [], _ => none
  | r :: t, b => if r.1 = b then some r.2 else lookupIn t b

/-- The dispatch-table entry of a byte, if it has one (R53). -/
def lookupEntry (b : Byte) : Option Entry := lookupIn dispatchTable b

/-- Decode of one byte (30_encoding.md section 6). -/
def decodeByte (b : Byte) : Except DecodeReject Instr :=
  match lookupEntry b with
  | some e => .ok e.handler
  | none   => .error (.noEntry b)

/-- Decode of the instruction at the head of a byte sequence, and the bytes after it; total on any bytes. The
length is always one byte (R50). -/
def decode : List Byte → Except DecodeReject (Instr × List Byte)
  | []      => .error .noByte
  | b :: bs =>
    match decodeByte b with
    | .ok i    => .ok (i, bs)
    | .error r => .error r

/-- Decode of a whole byte sequence, one instruction a byte; the first undefined byte rejects it. -/
def decodeProgram : List Byte → Except DecodeReject (List Instr)
  | []      => .ok []
  | b :: bs =>
    match decodeByte b with
    | .error r => .error r
    | .ok i =>
      match decodeProgram bs with
      | .error r => .error r
      | .ok is   => .ok (i :: is)

/-- The byte of an instruction word numbered as spec/opcode_table.json numbers it: bits `nbits-1 .. 0` of `w`,
every bit above them 0. -/
def tableByte (nbits w : Nat) : Byte := BitVec.ofNat 8 (w % 2 ^ nbits)

/-- The instruction the decoder reads from a table word. -/
def decodeTableWord (nbits w : Nat) : Option Instr :=
  match decode [tableByte nbits w] with
  | .ok r    => some r.1
  | .error _ => none

/-- The opcode byte of each instruction (R54). -/
def opcodeOf : Instr → Byte
  | .clc  => 0x18#8
  | .sec  => 0x38#8
  | .lsrA => 0x4A#8
  | .cld  => 0xD8#8
  | .inx  => 0xE8#8
  | .nop  => 0xEA#8
  | .sed  => 0xF8#8

/-- The encoder: one byte (R50). -/
def encode (i : Instr) : List Byte := [opcodeOf i]

/-- The bytes of a sequence of instructions, in order. -/
def encodeProgram : List Instr → List Byte
  | []      => []
  | i :: is => opcodeOf i :: encodeProgram is

end Sys2Proof
end

