-- ==== Sys2Proof/Machine/State.lean ====
section
/-! DEFINITION. The state of the machine, its faults and refusals, and reset (spec/10_state.md R10 to R29,
spec/20_memory.md R30 to R33, spec/70_reset_and_hazards.md R110). -/

namespace Sys2Proof.Machine

/-- The register aggregate: "the entire visible machine state" (10_state.md R10). No bit of any register is
hardwired (R21). -/
structure Regs where
  pc : Addr
  sp : Byte
  a  : Byte
  x  : Byte
  y  : Byte
  p  : Byte
deriving DecidableEq, Repr

/-- The instruction in progress (10_state.md R26): the opcode that was fetched, and how many of its cycles have
been performed. -/
structure InProgress where
  op  : Byte
  cyc : Nat
deriving DecidableEq, Repr

/-- The bytes the memory interface answers, as (address, byte) pairs: addresses strictly rising, all below
65536 (`Memory.wf`). An unlisted address has no value: reading it fails (log 2). -/
abbrev Memory := List Host.Cell

/-- The memory interface as the core meets it (20_memory.md R31 to R33, R37): what it answers, and whether it
fails the access of this cycle with its own failure value. Environment, not state of the block. -/
structure MemIface where
  cells   : Memory
  failing : Option Nat
deriving DecidableEq, Repr

/-- The whole state: the register aggregate, the instruction in progress (10_state.md R10), and the environment
`MEM` (00_scope.md R3) held as plain data. -/
structure State where
  regs : Regs
  ip   : Option InProgress
  mem  : MemIface
deriving DecidableEq, Repr

/-- What a failed memory access reports: `e` of `MemFailure(e)` (20_memory.md R37). -/
inductive MemError where
  /-- raised by the interface (`MemIface.failing`); the value is its own and passes unchanged. -/
  | raised (e : Nat)
  /-- raised by the model's memory, which holds no byte for this address (log 2). Safe: it stops where a
  total interface would answer. -/
  | unlisted (addr : Addr)
deriving DecidableEq, Repr

/-- The conditions of the hardware (60_exceptions.md R90). Both end a fetch cycle and change no state. -/
inductive Fault where
  /-- raised by the fetch cycle of a byte with no dispatch-table entry; carries the byte and the `pc` it was
  read from (R91). Safe: the spec's own outcome. -/
  | invalidOpcode (opcode : Byte) (pc : Addr)
  /-- raised by the fetch cycle whose read the memory interface failed (20_memory.md R37). Safe: the spec's own
  outcome for `raised`, a stop of the model for `unlisted`. -/
  | memFailure (e : MemError)
deriving DecidableEq, Repr

/-- What the model gives no meaning. -/
inductive Refusal where
  /-- raised by `exec` for an instruction without a meaning; no arm raises it. Safe. -/
  | notModelled (mnemonic : String)
  /-- raised by a step whose `ip` holds a byte with no dispatch-table entry: a state no run reaches, which the
  spec lets a model refuse (92_eei_decisions.md, notes for the modeller; log 5). Safe. -/
  | strayInProgress (op : Byte) (cyc : Nat)
deriving DecidableEq, Repr

/-- Reset (70_reset_and_hazards.md R110): the core is bound to the host's register values `INIT_REGS` and to a
memory interface, and `ip = none`. It makes no access and takes no cycle (R111). -/
def State.resetWith (init : Regs) (mem : MemIface) : State :=
  { regs := init, ip := none, mem := mem }

/-- The register values `State.reset` starts from. DESIGN CHOICE, unsafe (log 1): the spec leaves `INIT_REGS`
to the host. -/
def Regs.initial : Regs :=
  { pc := Config.initPc, sp := Config.initSp, a := Config.initA,
    x := Config.initX, y := Config.initY, p := Config.initP }

/-- A memory interface that lists nothing and does not fail by itself (log 2, log 3). -/
def MemIface.empty : MemIface := { cells := [], failing := none }

/-- The machine right after reset. -/
def State.reset : State := State.resetWith Regs.initial MemIface.empty

/-- The document's states (40_step_and_dispatch.md R68). `Committed` is `idle`: the step function cannot tell
them apart. -/
inductive Phase where
  | idle
  | fetched (op : Byte) (cyc : Nat)
deriving DecidableEq, Repr

end Sys2Proof.Machine
end

