-- ==== Sys2Proof/Machine/Memory.lean ====
section
/-! DEFINITION. The memory behind the interface, as a list of cells in canonical form, and the interface's two
primitives (spec/20_memory.md R30 to R37). -/

namespace Sys2Proof.Machine

/-- The byte listed at an address, if any. -/
def Memory.find : Memory → Nat → Option Byte
  | [], _ => none
  | c :: m, k => if c.1 = k then some c.2 else Memory.find m k

/-- List a byte at an address, in order, in place of one that is there. -/
def Memory.insertAt : Memory → Nat → Byte → Memory
  | [], k, v => [(k, v)]
  | c :: m, k, v =>
    if k < c.1 then (k, v) :: c :: m
    else if c.1 = k then (k, v) :: m
    else c :: Memory.insertAt m k v

/-- Take an address out of the list. -/
def Memory.removeAt : Memory → Nat → Memory
  | [], _ => []
  | c :: m, k => if c.1 = k then m else c :: Memory.removeAt m k

/-- Addresses strictly rising from `lo`, all inside the address space (R30). -/
def Memory.wfFrom (lo : Nat) : Memory → Bool
  | [] => true
  | c :: m => decide (lo ≤ c.1) && decide (c.1 < Config.addressSpace) && Memory.wfFrom (c.1 + 1) m

/-- The canonical form. An unlisted address has no value, so no entry is redundant. -/
def Memory.wf (m : Memory) : Bool := Memory.wfFrom 0 m

/-- What the memory holds for an address. -/
def Memory.read (m : Memory) (a : Addr) : Option Byte := Memory.find m a.toNat

/-- The memory with a byte stored at an address. -/
def Memory.write (m : Memory) (a : Addr) (v : Byte) : Memory := Memory.insertAt m a.toNat v

/-- The memory with no byte at an address any more. -/
def Memory.unmap (m : Memory) (a : Addr) : Memory := Memory.removeAt m a.toNat

/-- One call of the memory interface (R31), as the ports `mem_addr`, `mem_rd`, `mem_wr`, `mem_wdata` show it
(00_scope.md R7). -/
inductive Access where
  | read  (addr : Addr)
  | write (addr : Addr) (value : Byte)
deriving DecidableEq, Repr

/-- The answer to a read: the byte, or the interface's failure (R37). -/
inductive Answer where
  | byte    (b : Byte)
  | failure (e : MemError)
deriving DecidableEq, Repr

/-- A read call together with its answer: no answer without the call being made. -/
structure ReadCall where
  access : Access
  answer : Answer
deriving DecidableEq, Repr

/-- What the interface answers to a read of `a` (R33, R37): its failure if it fails the access, else the byte it
holds; where it holds none, the failure of log 2. -/
def MemIface.answer (m : MemIface) (a : Addr) : Answer :=
  match m.failing with
  | some e => .failure (.raised e)
  | none =>
    match m.cells.read a with
    | some b => .byte b
    | none   => .failure (.unlisted a)

/-- `MemRead(a, 1)`: one `read_byte` call (R31). -/
def memRead (s : State) (a : Addr) : ReadCall := { access := .read a, answer := s.mem.answer a }

/-- The interface after `MemWrite(a, 1, v)`, one `write_byte` call (R31), or its failure. Part of the interface;
no cycle of this hardware invokes it (R34). -/
def MemIface.store (m : MemIface) (a : Addr) (v : Byte) : Except MemError MemIface :=
  match m.failing with
  | some e => .error (.raised e)
  | none   => .ok { m with cells := m.cells.write a v }

end Sys2Proof.Machine
end

