-- ==== Sys2Proof/Machine/Operands.lean ====
section
/-! DEFINITION. The register operands: reading and writing the registers of the aggregate, and the register
each addressing mode names (spec/10_state.md R10 to R14, R21, spec/30_encoding.md R51). -/

namespace Sys2Proof.Machine

/-- Read an 8-bit register. No register is banked, aliased or hardwired (10_state.md section 2, R21). -/
def Regs.get (r : Regs) : Reg8 → Byte
  | .sp => r.sp
  | .a  => r.a
  | .x  => r.x
  | .y  => r.y
  | .p  => r.p

/-- Write an 8-bit register; every bit pattern is stored as given (R21). -/
def Regs.set (r : Regs) : Reg8 → Byte → Regs
  | .sp, v => { r with sp := v }
  | .a, v  => { r with a := v }
  | .x, v  => { r with x := v }
  | .y, v  => { r with y := v }
  | .p, v  => { r with p := v }

/-- The register that is both source and destination: `a` in the accumulator mode (R51), `x` for INX, whose
implied operand is fixed by the opcode (43_increment.md R85); none for the instructions that act on a flag or
on nothing. -/
def operandReg : Instr → Option Reg8
  | .clc  => none
  | .sec  => none
  | .lsrA => some .a
  | .cld  => none
  | .inx  => some .x
  | .nop  => none
  | .sed  => none

end Sys2Proof.Machine
end

