-- ==== Sys2Proof/Machine/Flags.lean ====
section
/-! DEFINITION. The flags of `p` and the ALU: set or clear one flag, SetNZ, INC8, LSR8 (spec/10_state.md R15 to
R24, spec/40_step_and_dispatch.md R73 to R78). -/

namespace Sys2Proof.Machine

/-- The bit position of each flag in `p` (10_state.md R15). The positions are the spec's decisions D1 and, as
labels only, D2 (log 7). -/
def flagPos : Flag → Nat
  | .N => 7
  | .V => 6
  | .U => 5
  | .B => 4
  | .D => 3
  | .I => 2
  | .Z => 1
  | .C => 0

/-- The mask of a flag (R15). -/
def flagMask (f : Flag) : Byte := 1#8 <<< flagPos f

/-- The value of a flag: `p.f`. -/
def getFlag (p : Byte) (f : Flag) : Bool := p.getLsbD (flagPos f)

/-- `p.f <- b`: writes that one bit and leaves the other seven (00_scope.md R8, 10_state.md R22). -/
def setFlag (p : Byte) (f : Flag) (b : Bool) : Byte :=
  if b then p ||| flagMask f else p &&& ~~~ flagMask f

/-- `SetNZ(v)` (40_step_and_dispatch.md R75): Z is whether the result byte is zero, N is its bit 7. -/
def setNZ (p : Byte) (v : Byte) : Byte := setFlag (setFlag p .Z (v == 0#8)) .N (v.getLsbD 7)

/-- `INC8(v)` (R77): plus one modulo 256, no carry out, no overflow out. -/
def inc8 (v : Byte) : Byte := v + 1#8

/-- The result of `LSR8(v)` (R78): `(0b0, v[7:1])`, a logical shift. -/
def lsr8 (v : Byte) : Byte := v >>> 1

/-- The carry out of `LSR8(v)` (R78): `v[0]`. -/
def lsr8Carry (v : Byte) : Bool := v.getLsbD 0

/-- The register aggregate with one flag written. -/
def Regs.writeFlag (r : Regs) (f : Flag) (b : Bool) : Regs := { r with p := setFlag r.p f b }

/-- The register aggregate with Z and N written from a result byte. -/
def Regs.writeNZ (r : Regs) (v : Byte) : Regs := { r with p := setNZ r.p v }

end Sys2Proof.Machine
end

