-- ==== Sys2Proof/Machine/Ops.lean ====
section
/-! DEFINITION. The shared operations of a step: the program counter's advance, the fetched state, committing an
instruction, and raising a condition (spec/40_step_and_dispatch.md R63, R65, R68, spec/60_exceptions.md R90 to
R97). -/

namespace Sys2Proof.Machine

/-- `pc +_16 1`, wrapping 0xFFFF to 0x0000 (10_state.md R11, D4). -/
def nextPc (pc : Addr) : Addr := pc + 1#16

/-- The state after a successful fetch cycle that read `b` (R63): `pc` advanced, `b` latched with one cycle done,
nothing else changed. -/
def fetched (s : State) (b : Byte) : State :=
  { s with regs := { s.regs with pc := nextPc s.regs.pc }, ip := some { op := b, cyc := 1 } }

/-- The state after an intermediate cycle (R64): one more cycle done, nothing else changed. -/
def advanced (s : State) (q : InProgress) : State :=
  { s with ip := some { op := q.op, cyc := q.cyc + 1 } }

/-- The commit of an instruction's effect (R65): the new register values, all in this one cycle, and the
instruction in progress discarded. No memory access (R67). -/
def commit (s : State) (r : Regs) : State := { s with regs := r, ip := none }

/-! Taking a condition. There is no trap entry (60_exceptions.md R94): nothing is saved, no mode, mask or flag
changes, control goes nowhere, and the condition is reported to the host with its information. There is no
return from one (R96). The state the hardware is left in is the state before the step (R92, R97):
`Machine.afterStep`. -/

/-- Raise InvalidOpcode (R91), carrying the byte and the `pc` at fetch time. -/
def raiseInvalidOpcode (b : Byte) (pc : Addr) : Host.Outcome State Fault Refusal :=
  .fault (.invalidOpcode b pc)

/-- Raise MemFailure (20_memory.md R37), passing the interface's failure on unchanged. -/
def raiseMemFailure (e : MemError) : Host.Outcome State Fault Refusal := .fault (.memFailure e)

/-- The document's state of a machine state (R68). -/
def State.phase (s : State) : Phase :=
  match s.ip with
  | none   => .idle
  | some q => .fetched q.op q.cyc

/-- The machine about to fetch byte `b` as its next instruction: `b` is what the memory interface answers at
`pc`, the interface does not fail, and no instruction is in progress. Everything else is as it was. -/
def placeFetchByte (s : State) (b : Byte) : State :=
  { s with ip := none, mem := { cells := s.mem.cells.write s.regs.pc b, failing := none } }

end Sys2Proof.Machine
end

