-- ==== Sys2Proof/Machine/FlagInstructions.lean ====
section
/-! DEFINITION. The meanings of CLC, SEC, CLD, SED (spec/41_flag_instructions.md R80 to R83): the handlers run in
the commit cycle. -/

namespace Sys2Proof.Machine

/-- CLC, R80: `p.C <- 0`. -/
def execClc (s : State) : Host.Outcome State Fault Refusal :=
  .next (commit s (s.regs.writeFlag .C false))

/-- SEC, R81: `p.C <- 1`. -/
def execSec (s : State) : Host.Outcome State Fault Refusal :=
  .next (commit s (s.regs.writeFlag .C true))

/-- CLD, R82: `p.D <- 0`. -/
def execCld (s : State) : Host.Outcome State Fault Refusal :=
  .next (commit s (s.regs.writeFlag .D false))

/-- SED, R83: `p.D <- 1`. -/
def execSed (s : State) : Host.Outcome State Fault Refusal :=
  .next (commit s (s.regs.writeFlag .D true))

end Sys2Proof.Machine
end

