-- ==== Sys2Proof/Machine/Increment.lean ====
section
/-! DEFINITION. The meaning of INX (spec/43_increment.md R85). -/

namespace Sys2Proof.Machine

/-- INX, R85: `x <- INC8(x)`, then `SetNZ` of the new `x`. -/
def execInx (s : State) : Host.Outcome State Fault Refusal :=
  .next (commit s ((s.regs.set .x (inc8 (s.regs.get .x))).writeNZ (inc8 (s.regs.get .x))))

end Sys2Proof.Machine
end

