-- ==== Sys2Proof/Machine/Nop.lean ====
section
/-! DEFINITION. The meaning of NOP (spec/42_nop.md R84). -/

namespace Sys2Proof.Machine

/-- NOP, R84: no register and no flag; the commit cycle discards the instruction in progress and does nothing
else. -/
def execNop (s : State) : Host.Outcome State Fault Refusal := .next (commit s s.regs)

end Sys2Proof.Machine
end

