-- ==== Sys2Proof/Machine/Shift.lean ====
section
/-! DEFINITION. The meaning of LSR A (spec/44_shift.md R86). -/

namespace Sys2Proof.Machine

/-- LSR A, R86: C is the bit shifted out, written whether it is 0 or 1; `a` is the shifted value; then `SetNZ`
of the new `a`. -/
def execLsrA (s : State) : Host.Outcome State Fault Refusal :=
  .next (commit s ((((s.regs.writeFlag .C (lsr8Carry (s.regs.get .a))).set .a (lsr8 (s.regs.get .a)))).writeNZ
    (lsr8 (s.regs.get .a))))

end Sys2Proof.Machine
end

