-- ==== Sys2Proof/Machine/Cycle.lean ====
section
/-! DEFINITION. One clock cycle: the scheduler, the fetch, intermediate and commit cycles, with the memory access
each makes (spec/40_step_and_dispatch.md R60 to R69, spec/20_memory.md R34, R35). -/

namespace Sys2Proof.Machine

/-- What one cycle does: its memory access, at most one (20_memory.md R35), and how it ends (R61). -/
structure Cycle where
  access  : Option Access
  outcome : Host.Outcome State Fault Refusal

/-- How a fetch cycle ends, given the answer to its read (R63): the failure, or InvalidOpcode for a byte with no
entry, or the fetched state. The lookup comes before `pc` is advanced (90_conflicts.md C1). -/
def fetchOutcome (s : State) : Answer → Host.Outcome State Fault Refusal
  | .failure e => raiseMemFailure e
  | .byte b =>
    match lookupEntry b with
    | none   => raiseInvalidOpcode b s.regs.pc
    | some _ => .next (fetched s b)

/-- The fetch cycle (R63): exactly one read, at the current `pc`. -/
def fetchCycle (s : State) : Cycle :=
  let r := memRead s s.regs.pc
  { access := some r.access, outcome := fetchOutcome s r.answer }

/-- An intermediate cycle of an implied or accumulator entry (R64): idle. No run reaches one, since every entry
has two cycles. -/
def intermediateCycle (s : State) (q : InProgress) : Cycle :=
  { access := none, outcome := .next (advanced s q) }

/-- The commit cycle (R65): the handler on the registers as they are now (R66); no memory access (R67). -/
def commitCycle (i : Instr) (s : State) : Cycle := { access := none, outcome := exec i s }

/-- Which cycle a step performs is decided by `ip` alone (R62). An `ip` whose byte has no entry is a state no run
reaches; it is refused by name (log 5). -/
def cycle (s : State) : Cycle :=
  match s.ip with
  | none => fetchCycle s
  | some q =>
    match lookupEntry q.op with
    | none => { access := none, outcome := .refused (.strayInProgress q.op q.cyc) }
    | some e => if q.cyc + 1 < e.cycles then intermediateCycle s q else commitCycle e.handler s

/-- The output ports of a cycle (00_scope.md R7). A value the spec drives only together with its strobe is absent
without it. -/
structure Ports where
  memRd             : Bool
  memWr             : Bool
  memAddr           : Option Addr
  memWdata          : Option Byte
  faultInvalidOpcode : Bool
  faultOpcode       : Option Byte
  faultPc           : Option Addr
deriving DecidableEq, Repr

/-- The strobes and address of the memory ports (R7). -/
def accessPorts : Option Access → Ports
  | none => ⟨false, false, none, none, false, none, none⟩
  | some (.read a) => ⟨true, false, some a, none, false, none, none⟩
  | some (.write a v) => ⟨false, true, some a, some v, false, none, none⟩

/-- The output ports of a cycle, with the InvalidOpcode report (R7, 60_exceptions.md R90). -/
def cyclePorts (c : Cycle) : Ports :=
  match c.outcome with
  | .fault (.invalidOpcode b pc) =>
    { accessPorts c.access with faultInvalidOpcode := true, faultOpcode := some b, faultPc := some pc }
  | .fault (.memFailure _) => accessPorts c.access
  | .next _ => accessPorts c.access
  | .refused _ => accessPorts c.access

end Sys2Proof.Machine
end

