-- ==== Sys2Proof/Machine/Step.lean ====
section
/-! DEFINITION. The step: one call is one clock cycle (spec/40_step_and_dispatch.md R60), and the placing of an
instruction word where the next fetch reads it. -/

namespace Sys2Proof.Machine

/-- One clock cycle (R60, R62). -/
def step (s : State) : Host.Outcome State Fault Refusal := (cycle s).outcome

/-- `s` with an instruction word stored where the next step fetches (log 8): the next step is that
instruction's fetch cycle, the one after it its commit cycle. -/
def State.withFetchWord (s : State) (nbits w : Nat) : State := placeFetchByte s (tableByte nbits w)

end Sys2Proof.Machine
end

