-- ==== Sys2Proof/Machine/Assembly.lean ====
section
/-! DEFINITION. The assembler syntax of the spec's listings (spec/30_encoding.md R57, R58): the text of each
instruction and the reading of one line. -/

namespace Sys2Proof.Machine

/-- The tokens of each instruction: its mnemonic, and the operand `A` of the accumulator mode (R57). -/
def asmTokens : Instr → List (List Char)
  | .clc  => [['C', 'L', 'C']]
  | .sec  => [['S', 'E', 'C']]
  | .lsrA => [['L', 'S', 'R'], ['A']]
  | .cld  => [['C', 'L', 'D']]
  | .inx  => [['I', 'N', 'X']]
  | .nop  => [['N', 'O', 'P']]
  | .sed  => [['S', 'E', 'D']]

/-- The text of an instruction: its tokens with one space between them. -/
def asmText (i : Instr) : List Char := [' '].intercalate (asmTokens i)

/-- A line of a listing: an instruction, or the directive `.byte 0xNN` (R57). -/
inductive AsmLine where
  | instr (i : Instr)
  | data  (b : Byte)
deriving DecidableEq, Repr

/-- A letter in capitals (R57: mnemonics are case-insensitive). -/
def upper (c : Char) : Char :=
  if 97 ≤ c.toNat ∧ c.toNat ≤ 122 then Char.ofNat (c.toNat - 32) else c

/-- The words of a line, in capitals; `w` is the word being read, last letter first. -/
def asmWords : List Char → List Char → List (List Char)
  | [], [] => []
  | [], w => [w.reverse]
  | c :: cs, w =>
    if c = ' ' then
      match w with
      | [] => asmWords cs []
      | _ :: _ => w.reverse :: asmWords cs []
    else asmWords cs (upper c :: w)

/-- The value of a hexadecimal digit. -/
def hexDigit (c : Char) : Option Nat :=
  if 48 ≤ c.toNat ∧ c.toNat ≤ 57 then some (c.toNat - 48)
  else if 65 ≤ c.toNat ∧ c.toNat ≤ 70 then some (c.toNat - 55)
  else none

/-- The byte `0xNN` writes. -/
def hexByte : List Char → Option Byte
  | ['0', 'X', h, l] =>
    match hexDigit h, hexDigit l with
    | some u, some v => some (BitVec.ofNat 8 (16 * u + v))
    | some _, none   => none
    | none, some _   => none
    | none, none     => none
  | _ => none

/-- The instruction some tokens name, among those listed. -/
def instrOfTokens (ws : List (List Char)) : List Instr → Option Instr
  | [] => none
  | i :: is => if asmTokens i = ws then some i else instrOfTokens ws is

/-- One line of assembly. The bare `LSR` that "some assemblers also accept" (R57) is accepted. -/
def asmLine (cs : List Char) : Option AsmLine :=
  match asmWords cs [] with
  | [['.', 'B', 'Y', 'T', 'E'], h] => (hexByte h).map .data
  | [['L', 'S', 'R']] => some (.instr .lsrA)
  | ws => (instrOfTokens ws [.clc, .sec, .lsrA, .cld, .inx, .nop, .sed]).map .instr

/-- The byte a line stands for: every mnemonic is one real instruction with one encoding (R58). -/
def asmByte : AsmLine → Byte
  | .instr i => opcodeOf i
  | .data b  => b

end Sys2Proof.Machine
end

