-- ==== Sys2Proof/Machine/HostPort.lean ====
section
/-! DEFINITION. What the host can do between two steps: the register port, memory behind the interface, and reset
(spec/10_state.md R25, spec/20_memory.md R44, spec/70_reset_and_hazards.md R110, R114, R117). -/

namespace Sys2Proof.Machine

/-- One act of the host between two steps. None reaches `ip` but a reset (10_state.md R25,
70_reset_and_hazards.md R114). -/
inductive HostAction where
  /-- write `pc` through the register port -/
  | writePc (v : Addr)
  /-- write one of the 8-bit registers through the register port -/
  | writeReg (r : Reg8) (v : Byte)
  /-- another component stores a byte behind the memory interface -/
  | storeByte (addr : Addr) (v : Byte)
  /-- the memory interface stops answering an address -/
  | unmapByte (addr : Addr)
  /-- the memory interface starts or stops failing accesses with a failure value of its own -/
  | setFailing (e : Option Nat)
  /-- reset: bind the core to these register values and this memory interface -/
  | reset (init : Regs) (mem : MemIface)
deriving DecidableEq, Repr

/-- The state after an act of the host. -/
def hostAct (s : State) : HostAction → State
  | .writePc v      => { s with regs := { s.regs with pc := v } }
  | .writeReg r v   => { s with regs := s.regs.set r v }
  | .storeByte a v  => { s with mem := { s.mem with cells := s.mem.cells.write a v } }
  | .unmapByte a    => { s with mem := { s.mem with cells := s.mem.cells.unmap a } }
  | .setFailing e   => { s with mem := { s.mem with failing := e } }
  | .reset init mem => State.resetWith init mem

/-- Acts of the host, the first one first. -/
def hostActs (s : State) : List HostAction → State
  | []      => s
  | h :: hs => hostActs (hostAct s h) hs

/-- Whether an act is a reset. -/
def HostAction.isReset : HostAction → Bool
  | .reset _ _     => true
  | .writePc _     => false
  | .writeReg _ _  => false
  | .storeByte _ _ => false
  | .unmapByte _   => false
  | .setFailing _  => false

/-- What the host can see of the machine: the six registers, not `ip` (10_state.md R25). -/
def hostView (s : State) : Regs := s.regs

end Sys2Proof.Machine
end

