-- ==== Sys2Proof/Machine/Run.lean ====
section
/-! DEFINITION. Runs: the state the hardware is left in after a step that raised a condition, the accesses of a
run, and a run driven by the host (spec/40_step_and_dispatch.md R70, R71, spec/60_exceptions.md R92, R95, R97). -/

namespace Sys2Proof.Machine

/-- The next state of an outcome, if it is one. -/
def nextOf : Host.Outcome State Fault Refusal → Option State
  | .next s    => some s
  | .fault _   => none
  | .refused _ => none

/-- The fault of an outcome, if it is one. -/
def faultOf : Host.Outcome State Fault Refusal → Option Fault
  | .next _    => none
  | .fault f   => some f
  | .refused _ => none

/-- The state the hardware is in after a step: a step that raises a condition changes none (60_exceptions.md R92,
R97). -/
def afterStep (s : State) : State := (nextOf (step s)).getD s

/-- The state after `n` clock ticks with no act of the host; a tick that raises a condition leaves the state, and
the next tick fetches again (60_exceptions.md R95). -/
def afterSteps : Nat → State → State
  | 0, s     => s
  | n + 1, s => afterSteps n (afterStep s)

/-- The states at the beginning of the first `n` ticks, in order. -/
def trajectory : Nat → State → List State
  | 0, _     => []
  | n + 1, s => s :: trajectory n (afterStep s)

/-- The memory accesses of the first `n` ticks, in order (20_memory.md R35). -/
def accesses : Nat → State → List Access
  | 0, _     => []
  | n + 1, s => (cycle s).access.toList ++ accesses n (afterStep s)

/-- The conditions raised in the first `n` ticks, in order. -/
def faults : Nat → State → List Fault
  | 0, _     => []
  | n + 1, s => (faultOf (step s)).toList ++ faults n (afterStep s)

/-- What happens to the machine from outside: a clock tick, or an act of the host between ticks. -/
inductive Event where
  | tick
  | host (h : HostAction)
deriving DecidableEq, Repr

/-- A driven machine: its state, and every condition raised so far, oldest first: a condition is always surfaced
and stays recorded (60_exceptions.md R93, R95). -/
structure Driven where
  state : State
  raised : List Fault
deriving DecidableEq, Repr

/-- The effect of one event. -/
def driveOne (d : Driven) : Event → Driven
  | .tick   => { state := afterStep d.state, raised := d.raised ++ (faultOf (step d.state)).toList }
  | .host h => { d with state := hostAct d.state h }

/-- The effect of a sequence of events, the first one first. -/
def drive (d : Driven) : List Event → Driven
  | []      => d
  | e :: es => drive (driveOne d e) es

end Sys2Proof.Machine
end

