-- ==== Sys2Proof/Safety.lean ====
section
/-! DEFINITION. The invariant of reachable states and what counts as a safe run (spec/10_state.md R26,
spec/20_memory.md R32, spec/60_exceptions.md R95). -/

namespace Sys2Proof.Safety

open Sys2Proof.Machine

/-- The invariant of the instruction in progress (10_state.md R26): the opcode is defined and
`1 <= cyc < cycles(op)`. -/
def ipWf : Option InProgress → Bool
  | none => true
  | some q =>
    match lookupEntry q.op with
    | none => false
    | some e => decide (1 ≤ q.cyc) && decide (q.cyc < e.cycles)

/-- The invariant: the instruction in progress as R26 says, and memory in canonical form. -/
def Inv (s : State) : Prop := ipWf s.ip = true ∧ s.mem.cells.wf = true

/-- The contract the environment owes (20_memory.md R32, R115): the interface does not fail and holds a byte for
every address. -/
def MemTotal (m : MemIface) : Prop := m.failing = none ∧ ∀ a : Addr, (m.cells.read a).isSome = true

/-- Every byte the interface holds is a defined opcode. -/
def AllDefined (m : MemIface) : Prop := ∀ (a : Addr) (b : Byte), m.cells.read a = some b → (lookupEntry b).isSome = true

/-- A safe run of `n` steps: none of them raises a condition or is refused. A condition is never a success
(60_exceptions.md R95). -/
def SafeRun (n : Nat) (s : State) : Prop := ∃ t : State, Host.Core.run Sys2Proof.core n s = .next t

end Sys2Proof.Safety
end

