-- ==== Sys2Proof/Certificates/Slice0/Obligations.lean ====
section
/-! DEFINITION. The statements about the machine, each from the rules of spec/ its docstring names. -/

namespace Sys2Proof.Certificates

open Sys2Proof.Machine

/-- The memory interface answers a read at `pc` with byte `b` (20_memory.md R31, R33). -/
def FetchReads (s : State) (b : Byte) : Prop := s.mem.failing = none ∧ s.mem.cells.read s.regs.pc = some b

/-- The memory interface fails a read at `pc` with `e`: with its own value, or, in this model, because it holds no
byte for the address (log 2). -/
def FetchFails (s : State) (e : MemError) : Prop :=
  (∃ n, s.mem.failing = some n ∧ e = .raised n) ∨
  (s.mem.failing = none ∧ s.mem.cells.read s.regs.pc = none ∧ e = .unlisted s.regs.pc)

/-- A byte that is the opcode of none of the seven instructions. -/
def Undefined (b : Byte) : Prop := ∀ i : Instr, opcodeOf i ≠ b

/-- The state in the middle of instruction `i`: fetched, not yet committed. -/
def InCommit (s : State) (i : Instr) : Prop := s.ip = some { op := opcodeOf i, cyc := 1 }

/-- `s` after fetching `b`: `pc` one further (modulo 2^16), `b` latched, all else as before. -/
def afterFetch (s : State) (b : Byte) : State :=
  { s with regs := { s.regs with pc := s.regs.pc + 1#16 }, ip := some { op := b, cyc := 1 } }

/-- The flags each instruction writes: "flags_written" of spec/opcode_table.json. -/
def flagsWritten : Instr → List Flag
  | .clc  => [.C]
  | .sec  => [.C]
  | .lsrA => [.C, .Z, .N]
  | .cld  => [.D]
  | .inx  => [.Z, .N]
  | .nop  => []
  | .sed  => [.D]

/-- The registers besides `p` each instruction writes: the read and write matrix of spec/10_state.md. -/
def regsWritten : Instr → List Reg8
  | .clc  => []
  | .sec  => []
  | .lsrA => [.a]
  | .cld  => []
  | .inx  => [.x]
  | .nop  => []
  | .sed  => []

/-- The byte `byte` is instruction `i`, and fetching it takes exactly two steps that leave the registers `h` makes
of those with `pc` advanced; the first step reads `pc`, the second accesses no memory. -/
def RunsInTwoCycles (i : Instr) (byte : Byte) (h : Regs → Regs) : Prop :=
  decode [byte] = .ok (i, []) ∧ encode i = [byte] ∧
  ∀ s : State, s.ip = none → FetchReads s byte →
    step s = .next (afterFetch s byte) ∧
    Host.Core.run core 2 s = .next { s with regs := h { s.regs with pc := s.regs.pc + 1#16 }, ip := none } ∧
    accesses 2 s = [.read s.regs.pc]

/-- `s` with flag D of `p` replaced. -/
def withD (s : State) (d : Bool) : State := { s with regs := { s.regs with p := setFlag s.regs.p .D d } }

/-- The memory interfaces a reset in `es` binds are in canonical form. -/
def ResetsWf (es : List Event) : Prop :=
  ∀ (init : Regs) (mem : MemIface), .host (.reset init mem) ∈ es → mem.cells.wf = true

end Sys2Proof.Certificates

open Sys2Proof Sys2Proof.Machine Sys2Proof.Certificates Sys2Proof.Safety

/-! ## Reset and the invariant -/

/-- R111: reset is no step, makes no access and writes nothing of its own; the first step after it is a fetch
cycle at `INIT_REGS.pc`. -/
def Obligations.ResetIsNoStepAndFetchComesFirst : Prop :=
  ∀ (s : State) (raised : List Fault) (init : Regs) (mem : MemIface),
    drive ⟨s, raised⟩ [.host (.reset init mem)] = ⟨{ regs := init, ip := none, mem := mem }, raised⟩ ∧
    cycle (hostAct s (.reset init mem)) = fetchCycle (hostAct s (.reset init mem)) ∧
    (cycle (hostAct s (.reset init mem))).access = some (.read init.pc)

/-- R26, R110: the invariant holds after reset, whatever the host binds. -/
def Obligations.ResetMeetsInvariant : Prop :=
  Inv State.reset ∧
  ∀ (init : Regs) (mem : MemIface), mem.cells.wf = true → Inv (State.resetWith init mem)

/-- R26: from every state that meets the invariant, a step that answers next gives a state that meets it; and then
`ip` is `none` or some instruction's opcode with exactly one cycle done. -/
def Obligations.StepKeepsInvariant : Prop :=
  ∀ s t : State, Inv s → step s = .next t →
    Inv t ∧ (t.ip = none ∨ ∃ i : Instr, t.ip = some { op := opcodeOf i, cyc := 1 })

/-- R25, R26, R114: no act of the host breaks the invariant (a reset binds a memory in canonical form). -/
def Obligations.HostActionsKeepInvariant : Prop :=
  ∀ (s : State) (h : HostAction), Inv s → ResetsWf [.host h] → Inv (hostAct s h)

/-- R26: the invariant holds all along a run driven by the host, whatever ticks and acts it is made of. -/
def Obligations.DrivenRunKeepsInvariant : Prop :=
  ∀ (es : List Event) (d : Driven), Inv d.state → ResetsWf es → Inv (drive d es).state

/-! ## The step -/

/-- R61: a step of a reachable state ends in exactly one of three outcomes, and in the Ok case it is a fetch or a
commit. That an address without a byte counts as a failed read (the second case of `FetchFails`) is the model's
choice, log 2; that a condition leaves the state is the spec's decisions D5 and D18 (log 6, log 10). -/
def Obligations.StepEndsInOneOfThreeOutcomes : Prop :=
  ∀ s : State, Inv s →
    (∃ i : Instr, s.ip = none ∧ FetchReads s (opcodeOf i) ∧ step s = .next (afterFetch s (opcodeOf i)) ∧
      (cycle s).access = some (.read s.regs.pc)) ∨
    (∃ (i : Instr) (t : State), InCommit s i ∧ exec i s = .next t ∧ step s = .next t ∧ t.ip = none ∧
      (cycle s).access = none) ∨
    (∃ b : Byte, s.ip = none ∧ FetchReads s b ∧ Undefined b ∧
      step s = .fault (.invalidOpcode b s.regs.pc) ∧ afterStep s = s) ∨
    (∃ e : MemError, s.ip = none ∧ FetchFails s e ∧ step s = .fault (.memFailure e) ∧ afterStep s = s)

/-- R62, R63, R65: where the bytes at `pc` decode to `i`, the step is its fetch and the step after it is `exec i`
of the fetched state. -/
def Obligations.StepRunsDecodedInstruction : Prop :=
  ∀ (s : State) (b : Byte) (i : Instr) (rest : List Byte), s.ip = none → FetchReads s b → i.wf = true →
    decode (b :: rest) = .ok (i, rest) →
    step s = .next (afterFetch s b) ∧
    step (afterFetch s b) = exec i (afterFetch s b) ∧
    Host.Core.run core 2 s = exec i (afterFetch s b)

/-- R62: which cycle a step performs is decided by `ip` alone. -/
def Obligations.SchedulerChoosesByInstructionInProgress : Prop :=
  (∀ s : State, s.ip = none → cycle s = fetchCycle s) ∧
  (∀ (s : State) (q : InProgress) (e : Entry), s.ip = some q → lookupEntry q.op = some e →
    step s = if q.cyc + 1 < e.cycles then .next { s with ip := some { op := q.op, cyc := q.cyc + 1 } }
      else exec e.handler s) ∧
  (∀ (b : Byte) (e : Entry), lookupEntry b = some e → e.cycles = 2)

/-- R63: the fetch cycle makes exactly one read, at the current `pc`; a failed read and an undefined byte end it
with no state change; else `pc` goes up by one modulo 2^16 and the opcode is latched, and nothing else changes. That
an address without a byte counts as a failed read (the second case of `FetchFails`) is the model's choice, log 2;
that a condition leaves the state is the spec's decisions D5 and D18 (log 6, log 10), the wrap its decision D4. -/
def Obligations.FetchCycleReadsLooksUpAdvances : Prop :=
  ∀ s : State, s.ip = none →
    (cycle s).access = some (.read s.regs.pc) ∧
    (∀ e, FetchFails s e → step s = .fault (.memFailure e) ∧ afterStep s = s) ∧
    (∀ b, FetchReads s b →
      (lookupEntry b = none → step s = .fault (.invalidOpcode b s.regs.pc) ∧ afterStep s = s) ∧
      (lookupEntry b ≠ none → step s = .next (afterFetch s b) ∧
        (afterFetch s b).regs.pc.toNat = (s.regs.pc.toNat + 1) % 65536))

/-- R65: the commit cycle applies a pure function of the registers, writes all of it at once, discards the
instruction in progress, accesses no memory and always ends Ok; the fetch cycle before it changed `pc` only. -/
def Obligations.CommitAppliesHandlerAtOnce : Prop :=
  (∀ i : Instr, ∃ handler : Regs → Regs, ∀ s : State,
    exec i s = .next { s with regs := handler s.regs, ip := none } ∧
    (InCommit s i → step s = .next { s with regs := handler s.regs, ip := none } ∧
      (cycle s).access = none)) ∧
  (∀ s t : State, s.ip = none → step s = .next t →
    t.regs = { s.regs with pc := s.regs.pc + 1#16 } ∧ t.mem = s.mem)

/-- R66: the handler reads the registers as they are at the commit cycle: whatever the host did between fetch and
commit, short of a reset, is what the commit sees; nothing is latched at fetch but the opcode. -/
def Obligations.CommitSeesHostWritesSinceFetch : Prop :=
  ∀ (s : State) (i : Instr) (hs : List HostAction), s.ip = none → FetchReads s (opcodeOf i) →
    (∀ h ∈ hs, h.isReset = false) →
    ∃ t : State, exec i (hostActs (afterFetch s (opcodeOf i)) hs) = .next t ∧
      drive ⟨s, []⟩ (.tick :: (hs.map .host ++ [.tick])) = ⟨t, []⟩

/-- R69: exactly two steps bring an instruction from idle to committed, whatever the registers hold, and `pc` has
advanced by exactly one. -/
def Obligations.TwoStepsPerInstruction : Prop :=
  ∀ (s : State) (i : Instr), s.ip = none → FetchReads s (opcodeOf i) →
    ∃ u t : State, Host.Core.run core 1 s = .next u ∧ u.ip ≠ none ∧
      Host.Core.run core 2 s = .next t ∧ t.ip = none ∧ t.regs.pc = s.regs.pc + 1#16

/-- R72: the only change of `pc` is the increment of a successful fetch cycle; only a host write or a reset moves it
otherwise; an undefined byte is no branch but InvalidOpcode. That InvalidOpcode leaves the state is the spec's decision
D5 (log 6, log 10), the wrap of the increment its decision D4. -/
def Obligations.PcMovesOnlyByFetchIncrement : Prop :=
  (∀ s t : State, step s = .next t →
    t.regs.pc = if s.ip = none then s.regs.pc + 1#16 else s.regs.pc) ∧
  (∀ (s : State) (h : HostAction), h.isReset = false → (∀ v, h ≠ .writePc v) →
    (hostAct s h).regs.pc = s.regs.pc) ∧
  (∀ (s : State) (b : Byte), s.ip = none → FetchReads s b → Undefined b →
    step s = .fault (.invalidOpcode b s.regs.pc) ∧ afterStep s = s)

/-- R34, R69, R72: `k` defined bytes at consecutive addresses run in `2 * k` steps; `pc` advances by `k` (modulo
2^16), `sp`, `y` and memory are untouched, and the accesses are the reads of those addresses, in order. That memory
does not change between the steps by itself is the model's choice, log 3. -/
def Obligations.StraightLineRunCompletes : Prop :=
  ∀ (k : Nat) (s : State), s.ip = none → s.mem.failing = none →
    (∀ j < k, ∃ i : Instr, s.mem.cells.read (s.regs.pc + BitVec.ofNat 16 j) = some (opcodeOf i)) →
    ∃ t : State, Host.Core.run core (2 * k) s = .next t ∧ t.ip = none ∧
      t.regs.pc = s.regs.pc + BitVec.ofNat 16 k ∧ t.regs.sp = s.regs.sp ∧ t.regs.y = s.regs.y ∧
      t.mem = s.mem ∧
      accesses (2 * k) s = (List.range k).map (fun j => .read (s.regs.pc + BitVec.ofNat 16 j))

/-- R71, R32: with a total memory of defined opcodes the machine never stops: every number of steps succeeds. That
memory does not change between the steps by itself is the model's choice, log 3. -/
def Obligations.DefinedTotalMemoryRunsForever : Prop :=
  ∀ s : State, Inv s → MemTotal s.mem → AllDefined s.mem → ∀ n : Nat, SafeRun n s

/-! ## Memory accesses -/

/-- R34: the opcode fetch is the only access: one read at `pc` in a fetch cycle, none in any other cycle, no write
ever, one read for a whole instruction, and memory reads as before at every address. -/
def Obligations.OpcodeFetchIsTheOnlyAccess : Prop :=
  (∀ s : State, (cycle s).access = if s.ip = none then some (.read s.regs.pc) else none) ∧
  (∀ (s : State) (i : Instr), s.ip = none → FetchReads s (opcodeOf i) → accesses 2 s = [.read s.regs.pc]) ∧
  (∀ s t : State, step s = .next t → ∀ a : Addr, t.mem.cells.read a = s.mem.cells.read a)

/-- R35: a step makes at most one access; and over any run, the accesses are exactly the reads of the fetch cycles, in order, each at the value `pc` had
when that cycle began. -/
def Obligations.AccessesOfRunAreItsFetchCycles : Prop :=
  (∀ s : State, (accesses 1 s).length ≤ 1) ∧
  ∀ (n : Nat) (s : State),
    accesses n s = ((trajectory n s).filter (fun u => u.ip.isNone)).map (fun u => .read u.regs.pc)

/-- R44: an opcode is read in its own fetch cycle: a change of memory before it is seen, a change after it does not
change the instruction in progress, and the core itself changes no memory. -/
def Obligations.FetchSeesMemoryAtItsOwnCycle : Prop :=
  (∀ (s : State) (i : Instr), s.ip = none → s.mem.failing = none →
    step (hostAct s (.storeByte s.regs.pc (opcodeOf i))) =
      .next (afterFetch (hostAct s (.storeByte s.regs.pc (opcodeOf i))) (opcodeOf i))) ∧
  (∀ (s : State) (i : Instr) (a : Addr) (v : Byte), InCommit s i →
    ∃ t : State, exec i s = .next t ∧ step s = .next t ∧
      step (hostAct s (.storeByte a v)) = .next (hostAct t (.storeByte a v)) ∧
      step (hostAct s (.unmapByte a)) = .next (hostAct t (.unmapByte a))) ∧
  (∀ s t : State, step s = .next t → t.mem = s.mem)

/-! ## Conditions -/

/-- R91: InvalidOpcode is raised exactly in the fetch cycle that reads a byte none of the seven instructions has, and
carries that byte and the `pc` at the start of the step. -/
def Obligations.InvalidOpcodeExactlyOnUndefinedByte : Prop :=
  ∀ (s : State) (b : Byte) (a : Addr),
    step s = .fault (.invalidOpcode b a) ↔ s.ip = none ∧ FetchReads s b ∧ Undefined b ∧ a = s.regs.pc

/-- R93: an undefined byte is always surfaced and never skipped: the tick that reads it records InvalidOpcode and
moves nothing, and nothing that happens later takes the record away. That the tick leaves the state is the spec's
decision D5 (log 10); that the record of a driven run keeps the condition is the model's reading, log 6. -/
def Obligations.UndefinedByteIsSurfacedNeverSkipped : Prop :=
  ∀ (d : Driven) (b : Byte), d.state.ip = none → FetchReads d.state b → Undefined b →
    (driveOne d .tick).state = d.state ∧
    ∀ es : List Event, ∃ later : List Fault,
      (drive d (.tick :: es)).raised = d.raised ++ .invalidOpcode b d.state.regs.pc :: later

/-- R37, R92, R95, R97: a step that raises a condition changes no state, so that without an act of the host every later
tick reads the same address and raises the same condition, for ever. That the memory interface then gives the same
answer, byte or failure, is the model's choice, log 3 (memory is plain data that only a host act changes): R95 says
only "if the memory interface returns the same byte", and R37 leaves a repeated failure to the interface. The
no-latch reading is the spec's decision D6, and that nothing changes its decisions D5 and D18. -/
def Obligations.ConditionIsRaisedAgainForEver : Prop :=
  ∀ (s : State) (f : Fault), step s = .fault f → ∀ n : Nat,
    afterSteps n s = s ∧ faults n s = List.replicate n f ∧
    accesses n s = List.replicate n (.read s.regs.pc)

/-- R37, R97: MemFailure is raised exactly when the interface fails the fetch read, with the interface's own value,
and once the host has mended the interface the next step fetches at the same `pc`. That an address without a byte
counts as a failed read is the model's choice, log 2. -/
def Obligations.MemFailureExactlyOnFailedRead : Prop :=
  (∀ (s : State) (e : MemError), step s = .fault (.memFailure e) ↔ s.ip = none ∧ FetchFails s e) ∧
  (∀ (s : State) (e : MemError) (i : Instr), step s = .fault (.memFailure e) →
    step (hostActs (afterStep s) [.setFailing none, .storeByte s.regs.pc (opcodeOf i)]) =
      .next (afterFetch (hostActs s [.setFailing none, .storeByte s.regs.pc (opcodeOf i)]) (opcodeOf i)))

/-- 92_eei_decisions.md, notes for the modeller: the model refuses exactly the states whose `ip` holds an undefined
opcode (the model's choice, log 5), and `exec` refuses and faults nothing. -/
def Obligations.OnlyStrayInstructionInProgressIsRefused : Prop :=
  (∀ (s : State) (r : Refusal), step s = .refused r ↔
    ∃ q : InProgress, s.ip = some q ∧ lookupEntry q.op = none ∧ r = .strayInProgress q.op q.cyc) ∧
  (∀ (i : Instr) (s : State), ∃ t : State, exec i s = .next t) ∧
  (∀ (s : State) (r : Refusal), Inv s → step s ≠ .refused r)

/-- R7, R90: what the output ports show: `mem_wr` is never asserted, `mem_rd` and `mem_addr` exactly on a fetch cycle,
the InvalidOpcode report exactly when the step raises it. The port names are the spec's decision D20; that `mem_addr`
and `mem_wdata` are absent without their strobes is the model's choice, log 13. -/
def Obligations.PortsShowTheCycle : Prop :=
  ∀ s : State,
    (cyclePorts (cycle s)).memWr = false ∧ (cyclePorts (cycle s)).memWdata = none ∧
    (cyclePorts (cycle s)).memRd = s.ip.isNone ∧
    (cyclePorts (cycle s)).memAddr = (if s.ip = none then some s.regs.pc else none) ∧
    ((cyclePorts (cycle s)).faultInvalidOpcode = true ↔ ∃ b, s.ip = none ∧ FetchReads s b ∧ Undefined b) ∧
    (∀ (b : Byte) (a : Addr), step s = .fault (.invalidOpcode b a) →
      (cyclePorts (cycle s)).faultOpcode = some b ∧ (cyclePorts (cycle s)).faultPc = some a)

/-! ## The ALU and the flags -/

/-- R75: SetNZ writes Z as whether the byte is zero and N as its bit 7, both always, no other flag; never both set;
used by INX and LSR A. -/
def Obligations.SetNZFollowsResultByte : Prop :=
  (∀ p v : Byte,
    (getFlag (setNZ p v) .Z = true ↔ v = 0#8) ∧ getFlag (setNZ p v) .N = v.getLsbD 7 ∧
    ¬ (getFlag (setNZ p v) .Z = true ∧ getFlag (setNZ p v) .N = true) ∧
    (∀ f : Flag, f ≠ .Z → f ≠ .N → getFlag (setNZ p v) f = getFlag p f)) ∧
  (∀ s : State, ∃ t u : State, exec .inx s = .next t ∧ exec .lsrA s = .next u ∧
    (getFlag t.regs.p .Z = true ↔ t.regs.x = 0#8) ∧ getFlag t.regs.p .N = t.regs.x.getLsbD 7 ∧
    (getFlag u.regs.p .Z = true ↔ u.regs.a = 0#8) ∧ getFlag u.regs.p .N = u.regs.a.getLsbD 7)

/-- R77: INC8 is plus one modulo 256, with no carry out and no overflow out. -/
def Obligations.Inc8IsPlusOneModulo256 : Prop :=
  (∀ v : Byte, (inc8 v).toNat = (v.toNat + 1) % 256) ∧
  inc8 0xFF#8 = 0x00#8 ∧ inc8 0x7F#8 = 0x80#8 ∧
  (∀ s : State, ∃ t : State, exec .inx s = .next t ∧ t.regs.x = inc8 s.regs.x ∧
    getFlag t.regs.p .C = getFlag s.regs.p .C ∧ getFlag t.regs.p .V = getFlag s.regs.p .V)

/-- R78: LSR8 halves, its carry out is bit 0, bit 7 of the result is 0. -/
def Obligations.Lsr8HalvesAndCarriesBitZero : Prop :=
  (∀ v : Byte, (lsr8 v).toNat = v.toNat / 2 ∧ lsr8Carry v = v.getLsbD 0 ∧ (lsr8 v).getLsbD 7 = false ∧
    (∀ k < 7, (lsr8 v).getLsbD k = v.getLsbD (k + 1)) ∧ (lsr8 v).toNat ≤ 0x7F) ∧
  (∀ r : Byte, r.toNat ≤ 0x7F → ∃ v : Byte, lsr8 v = r) ∧
  (lsr8 0x01#8, lsr8Carry 0x01#8) = (0x00#8, true) ∧ (lsr8 0x00#8, lsr8Carry 0x00#8) = (0x00#8, false) ∧
  (lsr8 0xFF#8, lsr8Carry 0xFF#8) = (0x7F#8, true) ∧ (lsr8 0x80#8, lsr8Carry 0x80#8) = (0x40#8, false)

/-- R22: flags are written independently; the flags an instruction writes come each from its own rule, in the one
commit cycle, and the flags it does not write are left. -/
def Obligations.FlagsAreIndependent : Prop :=
  (∀ (p : Byte) (f g : Flag) (b : Bool), getFlag (setFlag p f b) g = if g = f then b else getFlag p g) ∧
  (∀ v : Flag → Bool, ∃ p : Byte, ∀ f : Flag, getFlag p f = v f) ∧
  (∀ s : State, ∃ t u : State, exec .inx s = .next t ∧ exec .lsrA s = .next u ∧
    (∀ f : Flag, getFlag t.regs.p f =
      match f with
      | .Z => t.regs.x == 0#8
      | .N => t.regs.x.getLsbD 7
      | g => getFlag s.regs.p g) ∧
    (∀ f : Flag, getFlag u.regs.p f =
      match f with
      | .C => s.regs.a.getLsbD 0
      | .Z => u.regs.a == 0#8
      | .N => u.regs.a.getLsbD 7
      | g => getFlag s.regs.p g)) ∧
  (∀ (i : Instr) (s : State), ∃ t : State, exec i s = .next t ∧
    ∀ f : Flag, f ∉ flagsWritten i → getFlag t.regs.p f = getFlag s.regs.p f)

/-- R23: Z and N mirror the result byte after INX and LSR A only; it is no invariant: CLC, SEC, CLD, SED leave Z and N,
and reset and the host may put any pattern in `p`. -/
def Obligations.ZeroNegativeIsPostConditionOnly : Prop :=
  (∀ s : State, ∃ t : State, exec .inx s = .next t ∧
    getFlag t.regs.p .Z = decide (t.regs.x = 0#8) ∧ getFlag t.regs.p .N = t.regs.x.getLsbD 7) ∧
  (∀ s : State, ∃ t : State, exec .lsrA s = .next t ∧
    getFlag t.regs.p .Z = decide (t.regs.a = 0#8) ∧ getFlag t.regs.p .N = t.regs.a.getLsbD 7) ∧
  (∀ (i : Instr) (s : State), i = .clc ∨ i = .sec ∨ i = .cld ∨ i = .sed →
    ∃ t : State, exec i s = .next t ∧ getFlag t.regs.p .Z = getFlag s.regs.p .Z ∧
      getFlag t.regs.p .N = getFlag s.regs.p .N) ∧
  (∀ (s : State) (q a x y : Byte), ∃ init : Regs, init.p = q ∧ init.a = a ∧ init.x = x ∧ init.y = y ∧
    (hostAct s (.reset init s.mem)).regs = init ∧ (hostAct s (.writeReg .p q)).regs.p = q)

/-- R76: the frame of every instruction: each flag its row does not list, each register its rule does not name, `pc`
and every byte of memory are unchanged; Z and N of a data-producing instruction come from its result byte. -/
def Obligations.EveryInstructionFrame : Prop :=
  ∀ (i : Instr) (s : State), ∃ t : State, exec i s = .next t ∧
    (∀ f : Flag, f ∉ flagsWritten i → getFlag t.regs.p f = getFlag s.regs.p f) ∧
    (∀ r : Reg8, r ≠ .p → r ∉ regsWritten i → t.regs.get r = s.regs.get r) ∧
    t.regs.pc = s.regs.pc ∧ t.mem.failing = s.mem.failing ∧
    (∀ a : Addr, t.mem.cells.read a = s.mem.cells.read a) ∧
    (∀ r : Reg8, r ∈ regsWritten i →
      getFlag t.regs.p .Z = decide (t.regs.get r = 0#8) ∧ getFlag t.regs.p .N = (t.regs.get r).getLsbD 7)

/-! ## The registers -/

/-- R21: no bit of any register is hardwired: the host port stores every pattern as given and reads it back, and
touches no other register, no memory and no instruction in progress. -/
def Obligations.RegisterPortStoresEveryPattern : Prop :=
  (∀ (s : State) (r : Reg8) (v : Byte), ((hostView (hostAct s (.writeReg r v))).get r = v) ∧
    (∀ k : Reg8, k ≠ r → (hostView (hostAct s (.writeReg r v))).get k = (hostView s).get k) ∧
    (hostView (hostAct s (.writeReg r v))).pc = (hostView s).pc ∧
    (hostAct s (.writeReg r v)).ip = s.ip ∧ (hostAct s (.writeReg r v)).mem = s.mem) ∧
  (∀ (s : State) (v : Addr), hostView (hostAct s (.writePc v)) = { hostView s with pc := v } ∧
    (hostAct s (.writePc v)).ip = s.ip ∧ (hostAct s (.writePc v)).mem = s.mem)

/-- R13: `a` is read and written by LSR A and by no other instruction. -/
def Obligations.AccumulatorOnlyOfLsrA : Prop :=
  (∀ (i : Instr) (s : State) (v : Byte), i ≠ .lsrA → ∃ t : State, exec i s = .next t ∧ t.regs.a = s.regs.a ∧
    exec i { s with regs := { s.regs with a := v } } = .next { t with regs := { t.regs with a := v } }) ∧
  (∀ s : State, ∃ t : State, exec .lsrA s = .next t ∧ t.regs.a.toNat = s.regs.a.toNat / 2)

/-- R14: `x` is read and written by INX only, `y` by no instruction, and neither takes part in an address. -/
def Obligations.IndexRegistersOnlyOfInx : Prop :=
  (∀ (i : Instr) (s : State) (v : Byte), i ≠ .inx → ∃ t : State, exec i s = .next t ∧ t.regs.x = s.regs.x ∧
    exec i { s with regs := { s.regs with x := v } } = .next { t with regs := { t.regs with x := v } }) ∧
  (∀ s : State, ∃ t : State, exec .inx s = .next t ∧ t.regs.x.toNat = (s.regs.x.toNat + 1) % 256) ∧
  (∀ (i : Instr) (s : State) (v : Byte), ∃ t : State, exec i s = .next t ∧ t.regs.y = s.regs.y ∧
    exec i { s with regs := { s.regs with y := v } } = .next { t with regs := { t.regs with y := v } }) ∧
  (∀ (n : Nat) (s : State) (v w : Byte),
    accesses n { s with regs := { s.regs with x := v, y := w } } = accesses n s)

/-- 10_state.md, the read and write matrix: no instruction reads any flag. Replacing `p` before an instruction changes
nothing after it but the flags it does not write, which stay as replaced. -/
def Obligations.NoInstructionReadsAFlag : Prop :=
  ∀ (i : Instr) (s : State) (q : Byte), ∃ t u : State, exec i s = .next t ∧
    exec i { s with regs := { s.regs with p := q } } = .next u ∧
    { u with regs := { u.regs with p := t.regs.p } } = t ∧
    ∀ f : Flag, getFlag u.regs.p f = if f ∈ flagsWritten i then getFlag t.regs.p f else getFlag q f

/-- R19: the value of D changes no result, no other flag, no access, no condition and no timing, over any run. That
memory does not change between the steps by itself is the model's choice, log 3. -/
def Obligations.DecimalFlagIsInertOverRuns : Prop :=
  ∀ (n : Nat) (s : State) (d : Bool),
    accesses n (withD s d) = accesses n s ∧ faults n (withD s d) = faults n s ∧
    ∃ d' : Bool, afterSteps n (withD s d) = withD (afterSteps n s) d'

/-- R12, R14, R20: over any run without an act of the host, `sp`, `y`, and the flags I, B, U, V keep their values, and
memory is untouched. That memory does not change between the steps by itself is the model's choice, log 3. -/
def Obligations.InertRegistersAndFlagsNeverChange : Prop :=
  ∀ (n : Nat) (s : State), (afterSteps n s).regs.sp = s.regs.sp ∧ (afterSteps n s).regs.y = s.regs.y ∧
    (∀ f : Flag, f = .I ∨ f = .B ∨ f = .U ∨ f = .V →
      getFlag (afterSteps n s).regs.p f = getFlag s.regs.p f) ∧
    (afterSteps n s).mem = s.mem

/-! ## The host between the cycles of an instruction -/

/-- R117: a host write of `pc` between fetch and commit does not change the instruction in progress and redirects the
next fetch; a write of `x`, `a` is what INX, LSR A work on; a read in between sees `pc` advanced and no effect
yet; no act short of a reset reaches `ip`. -/
def Obligations.HostBetweenFetchAndCommit : Prop :=
  (∀ (s : State) (i : Instr) (v : Addr), InCommit s i → ∃ t : State, step s = .next t ∧
    step (hostAct s (.writePc v)) = .next { t with regs := { t.regs with pc := v } } ∧
    (cycle { t with regs := { t.regs with pc := v } }).access = some (.read v)) ∧
  (∀ (s : State) (v : Byte), InCommit s .inx → ∃ t : State, step (hostAct s (.writeReg .x v)) = .next t ∧
    t.regs.x = v + 1#8) ∧
  (∀ (s : State) (v : Byte), InCommit s .lsrA → ∃ t : State, step (hostAct s (.writeReg .a v)) = .next t ∧
    t.regs.a.toNat = v.toNat / 2) ∧
  (∀ (s : State) (i : Instr) (q : Byte), InCommit s i → ∃ t : State,
    step (hostAct s (.writeReg .p q)) = .next t ∧
    ∀ f : Flag, f ∉ flagsWritten i → getFlag t.regs.p f = getFlag q f) ∧
  (∀ (s : State) (i : Instr), s.ip = none → FetchReads s (opcodeOf i) → ∃ u : State, step s = .next u ∧
    hostView u = { hostView s with pc := s.regs.pc + 1#16 }) ∧
  (∀ (s : State) (h : HostAction), h.isReset = false → (hostAct s h).ip = s.ip)

/-- R114: a reset between fetch and commit discards the instruction: the increment of its fetch stays when the same
register values are bound again, the commit never happens, and the next step is a fetch. -/
def Obligations.ResetDiscardsInstructionInProgress : Prop :=
  ∀ (s : State) (i : Instr) (mem : MemIface), s.ip = none → FetchReads s (opcodeOf i) →
    ∃ u : State, step s = .next u ∧
      hostAct u (.reset u.regs mem) =
        { regs := { s.regs with pc := s.regs.pc + 1#16 }, ip := none, mem := mem } ∧
      (cycle (hostAct u (.reset u.regs mem))).access = some (.read (s.regs.pc + 1#16))

/-! ## The instructions. The opcode bytes and the bit positions in these statements are the spec's decisions D3 and
D1, log 7. -/

/-- CLC (41_flag_instructions.md): C is cleared, nothing else changes; byte 0x18, mask 0xFE by D3 and D1. -/
def Obligations.ClcClearsCarryOnly : Prop :=
  (∀ s : State, exec .clc s = .next { s with regs := { s.regs with p := s.regs.p &&& 0xFE#8 }, ip := none }) ∧
  (∀ (p : Byte) (f : Flag), getFlag (p &&& 0xFE#8) f = if f = .C then false else getFlag p f) ∧
  RunsInTwoCycles .clc 0x18#8 (fun r => { r with p := r.p &&& 0xFE#8 })

/-- SEC (41_flag_instructions.md): C is set, nothing else changes; byte 0x38, mask 0x01 by D3 and D1. -/
def Obligations.SecSetsCarryOnly : Prop :=
  (∀ s : State, exec .sec s = .next { s with regs := { s.regs with p := s.regs.p ||| 0x01#8 }, ip := none }) ∧
  (∀ (p : Byte) (f : Flag), getFlag (p ||| 0x01#8) f = if f = .C then true else getFlag p f) ∧
  RunsInTwoCycles .sec 0x38#8 (fun r => { r with p := r.p ||| 0x01#8 })

/-- CLD (41_flag_instructions.md): D is cleared, nothing else changes; byte 0xD8, mask 0xF7 by D3 and D1. -/
def Obligations.CldClearsDecimalOnly : Prop :=
  (∀ s : State, exec .cld s = .next { s with regs := { s.regs with p := s.regs.p &&& 0xF7#8 }, ip := none }) ∧
  (∀ (p : Byte) (f : Flag), getFlag (p &&& 0xF7#8) f = if f = .D then false else getFlag p f) ∧
  RunsInTwoCycles .cld 0xD8#8 (fun r => { r with p := r.p &&& 0xF7#8 })

/-- SED (41_flag_instructions.md): D is set, nothing else changes; byte 0xF8, mask 0x08 by D3 and D1. -/
def Obligations.SedSetsDecimalOnly : Prop :=
  (∀ s : State, exec .sed s = .next { s with regs := { s.regs with p := s.regs.p ||| 0x08#8 }, ip := none }) ∧
  (∀ (p : Byte) (f : Flag), getFlag (p ||| 0x08#8) f = if f = .D then true else getFlag p f) ∧
  RunsInTwoCycles .sed 0xF8#8 (fun r => { r with p := r.p ||| 0x08#8 })

/-- NOP (42_nop.md): no register and no flag changes; the commit cycle discards the instruction in progress; byte 0xEA
by D3. -/
def Obligations.NopChangesNothing : Prop :=
  (∀ s : State, exec .nop s = .next { s with ip := none }) ∧
  RunsInTwoCycles .nop 0xEA#8 (fun r => r)

/-- INX (43_increment.md): `x` plus one modulo 256, Z and N from the new `x`, the other six bits of `p` (mask 0x7D) and
all other registers unchanged; the three ranges of corner cases; byte 0xE8 and the bit positions by D3 and D1. -/
def Obligations.InxIncrementsX : Prop :=
  (∀ s : State, exec .inx s = .next { s with
    regs := { s.regs with
      x := s.regs.x + 1#8,
      p := (s.regs.p &&& 0x7D#8) ||| (if s.regs.x + 1#8 = 0#8 then 0x02#8 else 0x00#8) |||
        ((s.regs.x + 1#8) &&& 0x80#8) },
    ip := none }) ∧
  (∀ s : State, ∃ t : State, exec .inx s = .next t ∧ t.regs.x.toNat = (s.regs.x.toNat + 1) % 256 ∧
    (s.regs.x.toNat ≤ 0x7E → getFlag t.regs.p .N = false ∧ getFlag t.regs.p .Z = false) ∧
    (0x7F ≤ s.regs.x.toNat ∧ s.regs.x.toNat ≤ 0xFE →
      getFlag t.regs.p .N = true ∧ getFlag t.regs.p .Z = false) ∧
    (s.regs.x.toNat = 0xFF → getFlag t.regs.p .N = false ∧ getFlag t.regs.p .Z = true)) ∧
  RunsInTwoCycles .inx 0xE8#8 (fun r => { r with
    x := r.x + 1#8,
    p := (r.p &&& 0x7D#8) ||| (if r.x + 1#8 = 0#8 then 0x02#8 else 0x00#8) ||| ((r.x + 1#8) &&& 0x80#8) })

/-- LSR A (44_shift.md): `a` halved, C the old bit 0, Z from the new `a`, N cleared, the other five bits of `p` (mask
0x7C) and all other registers unchanged; byte 0x4A and the bit positions by D3 and D1. -/
def Obligations.LsrAShiftsAccumulator : Prop :=
  (∀ s : State, exec .lsrA s = .next { s with
    regs := { s.regs with
      a := s.regs.a >>> 1,
      p := (s.regs.p &&& 0x7C#8) ||| (s.regs.a &&& 0x01#8) |||
        (if s.regs.a >>> 1 = 0#8 then 0x02#8 else 0x00#8) },
    ip := none }) ∧
  (∀ s : State, ∃ t : State, exec .lsrA s = .next t ∧ t.regs.a.toNat = s.regs.a.toNat / 2 ∧
    getFlag t.regs.p .C = decide (s.regs.a.toNat % 2 = 1) ∧
    getFlag t.regs.p .Z = decide (s.regs.a.toNat < 2) ∧ getFlag t.regs.p .N = false) ∧
  RunsInTwoCycles .lsrA 0x4A#8 (fun r => { r with
    a := r.a >>> 1,
    p := (r.p &&& 0x7C#8) ||| (r.a &&& 0x01#8) ||| (if r.a >>> 1 = 0#8 then 0x02#8 else 0x00#8) })

/-! ## Encoding -/

/-- R53: decode is an exact match on all eight bits; a byte with an entry puts its opcode, and with it the entry's mode
and cycle count, into the instruction in progress; a byte without one raises InvalidOpcode. -/
def Obligations.DecodeIsExactMatch : Prop :=
  (∀ (b : Byte) (i : Instr), decodeByte b = .ok i ↔ opcodeOf i = b) ∧
  (∀ b : Byte, (∃ i, decodeByte b = .ok i) ∨ decodeByte b = .error (.noEntry b)) ∧
  (∀ (s : State) (b : Byte), s.ip = none → FetchReads s b →
    (∀ i, decodeByte b = .ok i → ∃ (t : State) (q : InProgress), step s = .next t ∧ t.ip = some q ∧
      lookupEntry q.op = some { handler := i, mode := i.mode, cycles := 2 }) ∧
    (decodeByte b = .error (.noEntry b) → step s = .fault (.invalidOpcode b s.regs.pc)))

/-- R50, R53, R54: decoding a byte sequence gives a sequence of instructions exactly when encoding those gives the
bytes back; and one instruction is read off the front of any bytes. -/
def Obligations.DecodeAndEncodeAreInverse : Prop :=
  (∀ (bs : List Byte) (is : List Instr), decodeProgram bs = .ok is ↔ encodeProgram is = bs) ∧
  (∀ (i : Instr) (rest : List Byte), i.wf = true → decode (encode i ++ rest) = .ok (i, rest))

/-- R54: the seven opcode words, bit by bit, decode to their instructions (the values are the spec's decision D3). -/
def Obligations.OpcodeWordsDecode : Prop :=
  decodeTableWord 8 0b00011000 = some .clc ∧ decodeTableWord 8 0b00111000 = some .sec ∧
  decodeTableWord 8 0b01001010 = some .lsrA ∧ decodeTableWord 8 0b11011000 = some .cld ∧
  decodeTableWord 8 0b11101000 = some .inx ∧ decodeTableWord 8 0b11101010 = some .nop ∧
  decodeTableWord 8 0b11111000 = some .sed

/-- R56, R92: each of the 249 bytes in the ranges of R56 raises InvalidOpcode in its fetch cycle (the values are the
spec's decision D3, log 7) and changes nothing (R92, the spec's decision D5, log 6 and log 10). -/
def Obligations.OtherBytesAreInvalidOpcode : Prop :=
  ∀ (s : State) (b : Byte), s.ip = none → FetchReads s b →
    (b.toNat ≤ 0x17 ∨ (0x19 ≤ b.toNat ∧ b.toNat ≤ 0x37) ∨ (0x39 ≤ b.toNat ∧ b.toNat ≤ 0x49) ∨
      (0x4B ≤ b.toNat ∧ b.toNat ≤ 0xD7) ∨ (0xD9 ≤ b.toNat ∧ b.toNat ≤ 0xE7) ∨ b.toNat = 0xE9 ∨
      (0xEB ≤ b.toNat ∧ b.toNat ≤ 0xF7) ∨ 0xF9 ≤ b.toNat) →
    step s = .fault (.invalidOpcode b s.regs.pc) ∧ afterStep s = s

/-- R57, R58: the text of an instruction, in capitals or in small letters, reads back as that instruction and stands for
its one opcode byte (the syntax is the spec's decision D16). -/
def Obligations.AssemblerTextReadsBack : Prop :=
  ∀ i : Instr, asmLine (asmText i) = some (.instr i) ∧
    asmLine ((asmText i).map Char.toLower) = some (.instr i) ∧ asmByte (.instr i) = opcodeOf i
end

