-- ==== Sys2Proof/Laws/Decode.lean ====
section
/-! SUPPORT. The dispatch table and the decoder: what a lookup can answer. -/

namespace Sys2Proof

theorem dispatchTable_wf : tableWf dispatchTable = true := by decide

/-- Everything a lookup can answer: the entry of the one instruction whose opcode byte was looked up. -/
theorem lookupEntry_some {b : Byte} {e : Entry} (h : lookupEntry b = some e) :
    opcodeOf e.handler = b ∧ e.mode = e.handler.mode ∧ e.cycles = 2 := by
  simp only [lookupEntry, dispatchTable, lookupIn] at h
  split_ifs at h <;> (cases h; subst_vars; exact ⟨rfl, rfl, rfl⟩)

@[simp] theorem lookupEntry_opcodeOf (i : Instr) :
    lookupEntry (opcodeOf i) = some { handler := i, mode := i.mode, cycles := 2 } := by
  cases i <;> rfl

/-- A byte has an entry exactly when it is some instruction's opcode. -/
theorem lookupEntry_isSome_iff (b : Byte) : (lookupEntry b).isSome = true ↔ ∃ i, opcodeOf i = b := by
  constructor
  · intro h
    obtain ⟨e, he⟩ := Option.isSome_iff_exists.mp h
    exact ⟨e.handler, (lookupEntry_some he).1⟩
  · rintro ⟨i, rfl⟩
    simp

end Sys2Proof
end

