-- ==== Sys2Proof/Laws/Flags.lean ====
section
/-! SUPPORT. The flags: what reading a flag gives after a flag was written. -/

namespace Sys2Proof.Machine

theorem flagPos_inj {f g : Flag} (h : flagPos f = flagPos g) : f = g := by
  cases f <;> cases g <;> first | rfl | cases h

theorem flagPos_lt (f : Flag) : flagPos f < 8 := by cases f <;> decide

theorem getLsbD_flagMask (f : Flag) (i : Nat) : (flagMask f).getLsbD i = decide (i = flagPos f) := by
  have hf := flagPos_lt f
  simp only [flagMask, BitVec.getLsbD_shiftLeft, BitVec.getLsbD_one]
  by_cases h : i = flagPos f
  · subst h; simp [hf]
  · rcases lt_or_ge i (flagPos f) with h1 | h1 <;> simp [h] <;> omega

/-- One bit of `p` after a flag was written: the flag's own bit is the value, every other bit is kept. -/
theorem getLsbD_setFlag (p : Byte) (f : Flag) (b : Bool) (i : Nat) :
    (setFlag p f b).getLsbD i = if i = flagPos f then b else p.getLsbD i := by
  have hf := flagPos_lt f
  unfold setFlag
  split <;> by_cases h : i = flagPos f <;>
    simp_all [BitVec.getLsbD_or, BitVec.getLsbD_and, BitVec.getLsbD_not, getLsbD_flagMask]
  intro hp
  exact BitVec.lt_of_getLsbD hp

@[simp] theorem getFlag_setFlag (p : Byte) (f g : Flag) (b : Bool) :
    getFlag (setFlag p f b) g = if g = f then b else getFlag p g := by
  unfold getFlag
  rw [getLsbD_setFlag]
  by_cases h : g = f
  · simp [h]
  · rw [if_neg h, if_neg (fun e => h (flagPos_inj e))]

/-- What `SetNZ` does to each flag. -/
@[simp] theorem getFlag_setNZ (p v : Byte) (g : Flag) :
    getFlag (setNZ p v) g =
      if g = .N then v.getLsbD 7 else if g = .Z then v == 0#8 else getFlag p g := by
  simp [setNZ]

end Sys2Proof.Machine
end

