-- ==== Sys2Proof/Laws/Memory.lean ====
section
/-! SUPPORT. Memory: a read after a write, the frame of a write, and that every operation keeps the canonical
form. -/

namespace Sys2Proof.Machine

theorem Memory.find_insertAt (m : Memory) (k j : Nat) (v : Byte) :
    (m.insertAt k v).find j = if k = j then some v else m.find j := by
  induction m with
  | nil => simp [Memory.insertAt, Memory.find]
  | cons c m ih =>
    simp only [Memory.insertAt]
    split
    · simp [Memory.find]
    · split
      · simp only [Memory.find]
        split_ifs <;> first | rfl | omega
      · simp only [Memory.find, ih]
        split_ifs <;> first | rfl | omega

theorem Memory.wfFrom_insertAt (m : Memory) (lo k : Nat) (v : Byte) (hm : m.wfFrom lo = true)
    (hlo : lo ≤ k) (hk : k < Config.addressSpace) : (m.insertAt k v).wfFrom lo = true := by
  induction m generalizing lo with
  | nil => simp [Memory.insertAt, Memory.wfFrom, hlo, hk]
  | cons c m ih =>
    simp only [Memory.wfFrom, Bool.and_eq_true, decide_eq_true_eq] at hm
    simp only [Memory.insertAt]
    split
    · simp [Memory.wfFrom, hlo, hk, hm.1.2, hm.2]; omega
    · split
      · simp_all [Memory.wfFrom]
      · simp only [Memory.wfFrom, Bool.and_eq_true, decide_eq_true_eq]
        exact ⟨hm.1, ih _ hm.2 (by omega)⟩

theorem Memory.wfFrom_mono (m : Memory) {lo lo' : Nat} (hm : m.wfFrom lo = true) (h : lo' ≤ lo) :
    m.wfFrom lo' = true := by
  cases m with
  | nil => rfl
  | cons c m =>
    simp only [Memory.wfFrom, Bool.and_eq_true, decide_eq_true_eq] at hm ⊢
    exact ⟨⟨by omega, hm.1.2⟩, hm.2⟩

theorem Memory.wfFrom_removeAt (m : Memory) (lo k : Nat) (hm : m.wfFrom lo = true) :
    (m.removeAt k).wfFrom lo = true := by
  induction m generalizing lo with
  | nil => rfl
  | cons c m ih =>
    simp only [Memory.wfFrom, Bool.and_eq_true, decide_eq_true_eq] at hm
    simp only [Memory.removeAt]
    split
    · exact Memory.wfFrom_mono m hm.2 (by omega)
    · simp only [Memory.wfFrom, Bool.and_eq_true, decide_eq_true_eq]
      exact ⟨hm.1, ih _ hm.2⟩

theorem Memory.find_of_wfFrom (m : Memory) {lo k : Nat} (hm : m.wfFrom lo = true) (hk : k < lo) :
    m.find k = none := by
  induction m generalizing lo with
  | nil => rfl
  | cons c m ih =>
    simp only [Memory.wfFrom, Bool.and_eq_true, decide_eq_true_eq] at hm
    simp only [Memory.find]
    rw [if_neg (by omega), ih hm.2 (by omega)]

theorem Memory.find_removeAt (m : Memory) {lo : Nat} (k j : Nat) (hm : m.wfFrom lo = true) :
    (m.removeAt k).find j = if k = j then none else m.find j := by
  induction m generalizing lo with
  | nil => simp [Memory.removeAt, Memory.find]
  | cons c m ih =>
    simp only [Memory.wfFrom, Bool.and_eq_true, decide_eq_true_eq] at hm
    simp only [Memory.removeAt]
    split
    · rename_i hc
      split_ifs with hj
      · rw [← hj, Memory.find_of_wfFrom m hm.2 (by omega)]
      · simp only [Memory.find]
        rw [if_neg (by omega)]
    · simp only [Memory.find, ih hm.2]
      split_ifs <;> first | rfl | omega

/-- A read after a write: the byte written there, and everywhere else what was read before. -/
theorem Memory.read_write (m : Memory) (a b : Addr) (v : Byte) :
    (m.write a v).read b = if a = b then some v else m.read b := by
  simp [Memory.write, Memory.read, Memory.find_insertAt, BitVec.toNat_inj]

/-- A read after an address was taken out: nothing there, and everywhere else what was read before. -/
theorem Memory.read_unmap (m : Memory) (a b : Addr) (hm : m.wf = true) :
    (m.unmap a).read b = if a = b then none else m.read b := by
  simp [Memory.unmap, Memory.read, Memory.find_removeAt m _ _ hm, BitVec.toNat_inj]

theorem Memory.wf_write (m : Memory) (a : Addr) (v : Byte) (hm : m.wf = true) : (m.write a v).wf = true :=
  m.wfFrom_insertAt 0 a.toNat v hm (Nat.zero_le _) a.isLt

theorem Memory.wf_unmap (m : Memory) (a : Addr) (hm : m.wf = true) : (m.unmap a).wf = true :=
  m.wfFrom_removeAt 0 a.toNat hm

theorem MemIface.wf_store (m n : MemIface) (a : Addr) (v : Byte) (hm : m.cells.wf = true)
    (h : m.store a v = .ok n) : n.cells.wf = true := by
  unfold MemIface.store at h
  split at h
  · cases h
  · cases h
    exact m.cells.wf_write a v hm

theorem reset_memory_wf : State.reset.mem.cells.wf = true := rfl

theorem placeFetchByte_wf (s : State) (b : Byte) (hm : s.mem.cells.wf = true) :
    (placeFetchByte s b).mem.cells.wf = true :=
  s.mem.cells.wf_write s.regs.pc b hm

/-- What an interface answers with a byte: it does not fail, and it holds that byte. -/
theorem MemIface.answer_byte_iff (m : MemIface) (a : Addr) (b : Byte) :
    m.answer a = .byte b ↔ m.failing = none ∧ m.cells.read a = some b := by
  unfold MemIface.answer
  cases m.failing <;> cases m.cells.read a <;> simp

end Sys2Proof.Machine
end

