-- ==== Sys2Proof/Laws/PerInstr.lean ====
section
/-! SUPPORT. The family OneByteEntry of statements about every instruction as syntax. -/

namespace Sys2Proof.Laws.OneByteEntry

/-- An instruction is well formed, is one byte long (spec/30_encoding.md R50), and its byte's dispatch-table entry
is well formed (R55). -/
def Statement (i : Instr) : Prop :=
  i.wf = true ∧ (encode i).length = 1 ∧ ∃ e, lookupEntry (opcodeOf i) = some e ∧ e.wf = true

theorem clc : Statement .clc := ⟨rfl, rfl, _, lookupEntry_opcodeOf .clc, rfl⟩
theorem sec : Statement .sec := ⟨rfl, rfl, _, lookupEntry_opcodeOf .sec, rfl⟩
theorem lsrA : Statement .lsrA := ⟨rfl, rfl, _, lookupEntry_opcodeOf .lsrA, rfl⟩
theorem cld : Statement .cld := ⟨rfl, rfl, _, lookupEntry_opcodeOf .cld, rfl⟩
theorem inx : Statement .inx := ⟨rfl, rfl, _, lookupEntry_opcodeOf .inx, rfl⟩
theorem nop : Statement .nop := ⟨rfl, rfl, _, lookupEntry_opcodeOf .nop, rfl⟩
theorem sed : Statement .sed := ⟨rfl, rfl, _, lookupEntry_opcodeOf .sed, rfl⟩

end Sys2Proof.Laws.OneByteEntry
end

