-- ==== Sys2Proof/Laws/State.lean ====
section
/-! SUPPORT. One lemma per field per update of the state, each true by rfl, so that no proof unfolds a record
update. -/

namespace Sys2Proof.Machine

variable (s : State) (b : Byte) (q : InProgress) (r : Regs) (m : MemIface)

@[simp] theorem fetched_pc : (fetched s b).regs.pc = nextPc s.regs.pc := rfl
@[simp] theorem fetched_sp : (fetched s b).regs.sp = s.regs.sp := rfl
@[simp] theorem fetched_a : (fetched s b).regs.a = s.regs.a := rfl
@[simp] theorem fetched_x : (fetched s b).regs.x = s.regs.x := rfl
@[simp] theorem fetched_y : (fetched s b).regs.y = s.regs.y := rfl
@[simp] theorem fetched_p : (fetched s b).regs.p = s.regs.p := rfl
@[simp] theorem fetched_ip : (fetched s b).ip = some { op := b, cyc := 1 } := rfl
@[simp] theorem fetched_mem : (fetched s b).mem = s.mem := rfl

@[simp] theorem advanced_regs : (advanced s q).regs = s.regs := rfl
@[simp] theorem advanced_ip : (advanced s q).ip = some { op := q.op, cyc := q.cyc + 1 } := rfl
@[simp] theorem advanced_mem : (advanced s q).mem = s.mem := rfl

@[simp] theorem commit_regs : (commit s r).regs = r := rfl
@[simp] theorem commit_ip : (commit s r).ip = none := rfl
@[simp] theorem commit_mem : (commit s r).mem = s.mem := rfl

@[simp] theorem resetWith_regs : (State.resetWith r m).regs = r := rfl
@[simp] theorem resetWith_ip : (State.resetWith r m).ip = none := rfl
@[simp] theorem resetWith_mem : (State.resetWith r m).mem = m := rfl

@[simp] theorem placeFetchByte_regs : (placeFetchByte s b).regs = s.regs := rfl
@[simp] theorem placeFetchByte_ip : (placeFetchByte s b).ip = none := rfl
@[simp] theorem placeFetchByte_cells :
    (placeFetchByte s b).mem.cells = s.mem.cells.write s.regs.pc b := rfl
@[simp] theorem placeFetchByte_failing : (placeFetchByte s b).mem.failing = none := rfl

@[simp] theorem set_pc (k : Reg8) (v : Byte) : (r.set k v).pc = r.pc := by cases k <;> rfl
@[simp] theorem get_set_same (k : Reg8) (v : Byte) : (r.set k v).get k = v := by cases k <;> rfl
theorem get_set_of_ne {k j : Reg8} (v : Byte) (h : j ≠ k) : (r.set k v).get j = r.get j := by
  cases k <;> cases j <;> first | rfl | exact absurd rfl h

variable (f : Flag) (w : Bool) (v : Byte)

@[simp] theorem writeFlag_pc : (r.writeFlag f w).pc = r.pc := rfl
@[simp] theorem writeFlag_sp : (r.writeFlag f w).sp = r.sp := rfl
@[simp] theorem writeFlag_a : (r.writeFlag f w).a = r.a := rfl
@[simp] theorem writeFlag_x : (r.writeFlag f w).x = r.x := rfl
@[simp] theorem writeFlag_y : (r.writeFlag f w).y = r.y := rfl
@[simp] theorem writeFlag_p : (r.writeFlag f w).p = setFlag r.p f w := rfl

@[simp] theorem writeNZ_pc : (r.writeNZ v).pc = r.pc := rfl
@[simp] theorem writeNZ_sp : (r.writeNZ v).sp = r.sp := rfl
@[simp] theorem writeNZ_a : (r.writeNZ v).a = r.a := rfl
@[simp] theorem writeNZ_x : (r.writeNZ v).x = r.x := rfl
@[simp] theorem writeNZ_y : (r.writeNZ v).y = r.y := rfl
@[simp] theorem writeNZ_p : (r.writeNZ v).p = setNZ r.p v := rfl

@[simp] theorem hostAct_writePc_ip (a : Addr) : (hostAct s (.writePc a)).ip = s.ip := rfl
@[simp] theorem hostAct_writeReg_ip (k : Reg8) : (hostAct s (.writeReg k v)).ip = s.ip := rfl
@[simp] theorem hostAct_storeByte_ip (a : Addr) : (hostAct s (.storeByte a v)).ip = s.ip := rfl
@[simp] theorem hostAct_unmapByte_ip (a : Addr) : (hostAct s (.unmapByte a)).ip = s.ip := rfl
@[simp] theorem hostAct_setFailing_ip (e : Option Nat) : (hostAct s (.setFailing e)).ip = s.ip := rfl

/-- A host act that is no reset leaves the instruction in progress. -/
theorem hostAct_ip {h : HostAction} (hr : h.isReset = false) : (hostAct s h).ip = s.ip := by
  cases h <;> first | rfl | cases hr

end Sys2Proof.Machine
end

