-- ==== Sys2Proof/Laws/Step.lean ====
section
/-! SUPPORT. Everything a cycle can do, said once: every handler answers a next state made by `commit`, and a step
that answers next is a fetch, an intermediate cycle or a commit. -/

namespace Sys2Proof.Machine

/-- The registers a handler leaves, as a function of the registers it reads (40_step_and_dispatch.md R65). -/
def handlerRegs : Instr → Regs → Regs
  | .clc, r  => r.writeFlag .C false
  | .sec, r  => r.writeFlag .C true
  | .lsrA, r => ((r.writeFlag .C (lsr8Carry r.a)).set .a (lsr8 r.a)).writeNZ (lsr8 r.a)
  | .cld, r  => r.writeFlag .D false
  | .inx, r  => (r.set .x (inc8 r.x)).writeNZ (inc8 r.x)
  | .nop, r  => r
  | .sed, r  => r.writeFlag .D true

theorem exec_eq_commit (i : Instr) (s : State) : exec i s = .next (commit s (handlerRegs i s.regs)) := by
  cases i <;> rfl

/-- A fetch cycle that answers next: the interface answered a byte with an entry, and the state is the fetched
one. -/
theorem fetchOutcome_next {s t : State} {r : Answer} (h : fetchOutcome s r = .next t) :
    ∃ b, r = .byte b ∧ (lookupEntry b).isSome = true ∧ t = fetched s b := by
  cases r with
  | failure e => cases h
  | byte b =>
    simp only [fetchOutcome] at h
    split at h
    · cases h
    · rename_i e he
      cases h
      exact ⟨b, rfl, by simp [he], rfl⟩

/-- A step that answers next is exactly one of: a fetch of a defined byte, an intermediate cycle (an `ip` with
`cyc = 0`, which no run reaches), a commit. -/
theorem step_next {s t : State} (h : step s = .next t) :
    (s.ip = none ∧ ∃ b, s.mem.answer s.regs.pc = .byte b ∧ (lookupEntry b).isSome = true ∧ t = fetched s b) ∨
    (∃ q, s.ip = some q ∧ q.cyc = 0 ∧ (lookupEntry q.op).isSome = true ∧ t = advanced s q) ∨
    (∃ q e, s.ip = some q ∧ 1 ≤ q.cyc ∧ lookupEntry q.op = some e ∧
      t = commit s (handlerRegs e.handler s.regs)) := by
  unfold step cycle at h
  split at h
  · rename_i hip
    exact .inl ⟨hip, fetchOutcome_next h⟩
  · rename_i q hip
    split at h
    · cases h
    · rename_i e he
      have hc := (lookupEntry_some he).2.2
      split at h
      · rename_i hlt
        cases h
        exact .inr (.inl ⟨q, hip, by omega, by simp [he], rfl⟩)
      · rename_i hge
        simp only [commitCycle, exec_eq_commit] at h
        cases h
        exact .inr (.inr ⟨q, e, hip, by omega, he, rfl⟩)

/-- No step changes the memory interface (20_memory.md R34). -/
theorem step_next_mem {s t : State} (h : step s = .next t) : t.mem = s.mem := by
  obtain ⟨-, b, -, -, rfl⟩ | ⟨q, -, -, -, rfl⟩ | ⟨q, e, -, -, -, rfl⟩ := step_next h <;> rfl

/-- A handler leaves `pc`, `sp` and `y`. -/
theorem handlerRegs_frame (i : Instr) (r : Regs) :
    (handlerRegs i r).pc = r.pc ∧ (handlerRegs i r).sp = r.sp ∧ (handlerRegs i r).y = r.y := by
  cases i <;> exact ⟨rfl, rfl, rfl⟩

/-- The step of a state that has just fetched instruction `i` is `i`'s commit. -/
theorem step_of_ip_opcode {s : State} {i : Instr} (h : s.ip = some { op := opcodeOf i, cyc := 1 }) :
    step s = exec i s := by
  simp [step, cycle, h, commitCycle]

/-- The step of a state with no instruction in progress is the fetch. -/
theorem step_of_ip_none {s : State} (h : s.ip = none) : step s = fetchOutcome s (s.mem.answer s.regs.pc) := by
  simp [step, cycle, h, fetchCycle, memRead]

end Sys2Proof.Machine
end

