-- ==== Sys2Proof/Laws/Run.lean ====
section
/-! SUPPORT. What a cycle accesses, when a step can raise a condition, and the small lemmas of runs: one lemma per
function of Machine/Run.lean. -/

namespace Sys2Proof.Machine

/-- The access of a cycle: one read at `pc` if it is a fetch cycle, none otherwise. -/
theorem cycle_access (s : State) :
    (cycle s).access = if s.ip = none then some (.read s.regs.pc) else none := by
  unfold cycle
  cases s.ip with
  | none => rfl
  | some q =>
    rw [if_neg (by simp)]
    dsimp only
    split
    · rfl
    · split <;> rfl

/-- Only a fetch cycle can raise a condition. -/
theorem ip_none_of_step_fault {s : State} {f : Fault} (h : step s = .fault f) : s.ip = none := by
  cases hs : s.ip with
  | none => rfl
  | some q =>
    simp only [step, cycle, hs] at h
    split at h
    · cases h
    · split at h
      · cases h
      · simp [commitCycle, exec_eq_commit] at h

theorem afterStep_of_fault {s : State} {f : Fault} (h : step s = .fault f) : afterStep s = s := by
  simp [afterStep, h, nextOf]

theorem afterStep_of_refused {s : State} {r : Refusal} (h : step s = .refused r) : afterStep s = s := by
  simp [afterStep, h, nextOf]

theorem afterStep_of_next {s t : State} (h : step s = .next t) : afterStep s = t := by
  simp [afterStep, h, nextOf]

theorem hostActs_ip (s : State) (hs : List HostAction) (h : ∀ a ∈ hs, a.isReset = false) :
    (hostActs s hs).ip = s.ip := by
  induction hs generalizing s with
  | nil => rfl
  | cons a as ih =>
    rw [hostActs, ih _ fun b hb => h b (by simp [hb]), hostAct_ip _ (h a (by simp))]

theorem drive_append (d : Driven) (xs ys : List Event) : drive d (xs ++ ys) = drive (drive d xs) ys := by
  induction xs generalizing d with
  | nil => rfl
  | cons x xs ih => exact ih _

/-- A stretch of host acts in a driven run. -/
theorem drive_map_host (s : State) (f : List Fault) (hs : List HostAction) :
    drive ⟨s, f⟩ (hs.map .host) = ⟨hostActs s hs, f⟩ := by
  induction hs generalizing s with
  | nil => rfl
  | cons a as ih => exact ih _

theorem accesses_add (m n : Nat) (s : State) :
    accesses (m + n) s = accesses m s ++ accesses n (afterSteps m s) := by
  induction m generalizing s with
  | zero => simp [accesses, afterSteps]
  | succ m ih =>
    rw [show m + 1 + n = (m + n) + 1 by omega]
    simp [accesses, afterSteps, ih]

/-- A run of `m + n` steps whose first `m` succeed goes on from where they end. -/
theorem run_add {m : Nat} (n : Nat) {s t : State} (h : Host.Core.run core m s = .next t) :
    Host.Core.run core (m + n) s = Host.Core.run core n t := by
  induction m generalizing s with
  | zero => cases h; rw [Nat.zero_add]
  | succ m ih =>
    rw [show m + 1 + n = (m + n) + 1 by omega]
    simp only [Host.Core.run] at h ⊢
    cases hs : core.step s with
    | next u => rw [hs] at h; exact ih h
    | fault f => rw [hs] at h; cases h
    | refused r => rw [hs] at h; cases h

/-- A run that succeeds ends where the ticks alone lead. -/
theorem afterSteps_of_run {m : Nat} {s t : State} (h : Host.Core.run core m s = .next t) :
    afterSteps m s = t := by
  induction m generalizing s with
  | zero => cases h; rfl
  | succ m ih =>
    simp only [Host.Core.run] at h
    cases hs : step s with
    | next u =>
      rw [show core.step s = _ from hs] at h
      rw [afterSteps, afterStep_of_next hs]
      exact ih h
    | fault f => rw [show core.step s = _ from hs] at h; cases h
    | refused r => rw [show core.step s = _ from hs] at h; cases h

end Sys2Proof.Machine
end

