-- ==== Sys2Proof/Tests/Slice0.lean ====
section
/-! SUPPORT. Tests. Expected results come from spec/95_test_vectors.md (ids S, V) and spec/30_encoding.md; the
witness theorems show that the hypotheses of the statements can be met. -/

namespace Sys2Proof.Tests

open Sys2Proof.Machine Sys2Proof.Certificates Sys2Proof.Safety

/-! ## Helpers -/

/-- No instruction in progress, registers `r`, and `b` at `pc`. -/
def idle (r : Regs) (b : Byte) : State := placeFetchByte (State.resetWith r MemIface.empty) b

/-- Opcode `b` fetched and not yet committed, registers `r`. -/
def inWindow (r : Regs) (b : Byte) : State :=
  { regs := r, ip := some { op := b, cyc := 1 }, mem := MemIface.empty }

/-- The registers of the vectors' start states. -/
def regs (a x p : Byte) : Regs := { pc := 0x0200, sp := 0xFD, a := a, x := x, y := 0x00, p := p }

/-- The registers after the step that commits opcode `b`. -/
def committed (b a x p : Byte) : Option Regs := (nextOf (step (inWindow (regs a x p) b))).map (·.regs)

/-- `n` cells holding NOP from address `lo` on. -/
def nops (lo : Nat) : Nat → Memory
  | 0     => []
  | n + 1 => (lo, 0xEA#8) :: nops (lo + 1) n

/-! ## Well-formedness: ill-formed terms are refused -/

theorem test_entry_wf_refuses_cycles : Entry.wf { handler := .inx, mode := .implied, cycles := 3 } = false := by decide
theorem test_entry_wf_refuses_mode : Entry.wf { handler := .inx, mode := .accumulator, cycles := 2 } = false := by decide
theorem test_table_wf_refuses_two_entries :
    tableWf [(0x18#8, ⟨.clc, .implied, 2⟩), (0x18#8, ⟨.sec, .implied, 2⟩)] = false := by decide
theorem test_table_wf_refuses_bad_entry : tableWf [(0x18#8, ⟨.clc, .implied, 1⟩)] = false := by decide
theorem test_memory_wf_refuses_order : Memory.wf [(5, 0x00#8), (4, 0x00#8)] = false := by decide
theorem test_memory_wf_refuses_repeat : Memory.wf [(5, 0x00#8), (5, 0x01#8)] = false := by decide
theorem test_memory_wf_refuses_outside : Memory.wf [(65536, 0x00#8)] = false := by decide
theorem test_ip_wf_refuses_undefined : ipWf (some ⟨0x02#8, 1⟩) = false := by decide
theorem test_ip_wf_refuses_cycle_zero : ipWf (some ⟨0xE8#8, 0⟩) = false := by decide
theorem test_ip_wf_refuses_cycle_two : ipWf (some ⟨0xE8#8, 2⟩) = false := by decide
theorem test_table_wf : tableWf dispatchTable = true := by decide
theorem test_instr_wf : Instr.wf .lsrA = true := by decide

/-! ## Decoding: the binary column of 30_encoding.md R54 -/

theorem test_decode_clc : decode [0b00011000#8] = .ok (.clc, []) := by rfl
theorem test_decode_sec : decode [0b00111000#8] = .ok (.sec, []) := by rfl
theorem test_decode_lsrA : decode [0b01001010#8] = .ok (.lsrA, []) := by rfl
theorem test_decode_cld : decode [0b11011000#8] = .ok (.cld, []) := by rfl
theorem test_decode_inx : decode [0b11101000#8] = .ok (.inx, []) := by rfl
theorem test_decode_nop : decode [0b11101010#8] = .ok (.nop, []) := by rfl
theorem test_decode_sed : decode [0b11111000#8] = .ok (.sed, []) := by rfl
theorem test_decode_brk_rejected : decode [0x00#8] = .error (.noEntry 0x00) := by rfl
theorem test_decode_empty_rejected : decode [] = .error .noByte := by rfl
theorem test_decode_table_word_high_bits : decodeTableWord 8 0x1E8 = some .inx := by decide
theorem test_asm_lsr : asmLine ['l', 's', 'r', ' ', ' ', 'A'] = some (.instr .lsrA) := by decide
theorem test_asm_byte : asmLine ['.', 'b', 'y', 't', 'e', ' ', '0', 'x', '0', '2'] = some (.data 0x02) := by decide
theorem test_asm_rejects : asmLine ['B', 'R', 'K'] = none := by decide

/-! ## Instructions (vectors V and S) -/

theorem test_clc_V2 : committed 0x18 0 0 0xFF = some (regs 0 0 0xFE) := by decide
theorem test_clc_V4 : committed 0x18 0 0 0x5A = some (regs 0 0 0x5A) := by decide
theorem test_sec_V5 : committed 0x38 0 0 0x00 = some (regs 0 0 0x01) := by decide
theorem test_sec_V8 : committed 0x38 0 0 0x5A = some (regs 0 0 0x5B) := by decide
theorem test_cld_V10 : committed 0xD8 0 0 0xFF = some (regs 0 0 0xF7) := by decide
theorem test_cld_V12 : committed 0xD8 0 0 0x5A = some (regs 0 0 0x52) := by decide
theorem test_sed_V13 : committed 0xF8 0 0 0x00 = some (regs 0 0 0x08) := by decide
theorem test_sed_V15 : committed 0xF8 0 0 0xA5 = some (regs 0 0 0xAD) := by decide
theorem test_nop_V17 : committed 0xEA 0x12 0x34 0xA5 = some (regs 0x12 0x34 0xA5) := by decide
theorem test_inx_V21 : committed 0xE8 0 0x7F 0xFF = some (regs 0 0x80 0xFD) := by decide
theorem test_inx_V23 : committed 0xE8 0 0xFF 0xFF = some (regs 0 0x00 0x7F) := by decide
theorem test_lsrA_V32 : committed 0x4A 0x01 0 0x00 = some (regs 0x00 0 0x03) := by decide
theorem test_lsrA_V41 : committed 0x4A 0xAA 0 0x03 = some (regs 0x55 0 0x00) := by decide

/-! ## The step, the host port, the conditions -/

theorem test_fetch_wraps_V67 : (nextOf (step (idle ⟨0xFFFF, 0, 0, 0, 0, 0x01⟩ 0x18))).map
    (fun t => (t.regs.pc, t.regs.p, t.ip)) = some (0x0000, 0x01, some ⟨0x18, 1⟩) := by decide
theorem test_commit_sees_host_write_V60 : (nextOf (step (hostAct (inWindow (regs 0 0x05 0) 0xE8) (.writeReg .x 0x7F)))).map
    (fun t => (t.regs.x, t.regs.p, t.ip)) = some (0x80, 0x80, none) := by decide
theorem test_host_pc_V61 : (nextOf (step (hostAct (inWindow (regs 0x10 0 0x80) 0x4A) (.writePc 0x1234)))).map
    (fun t => (t.regs.a, t.regs.p, t.regs.pc)) = some (0x08, 0x00, 0x1234) := by decide
theorem test_invalid_opcode_V62 : faultOf (step (idle ⟨0x0604, 0xFD, 0x40, 0, 0x77, 0x03⟩ 0x02)) =
    some (.invalidOpcode 0x02 0x0604) := by decide
theorem test_invalid_opcode_leaves_state_V62 : afterStep (idle ⟨0x0604, 0xFD, 0x40, 0, 0x77, 0x03⟩ 0x02) =
    idle ⟨0x0604, 0xFD, 0x40, 0, 0x77, 0x03⟩ 0x02 := by decide
theorem test_brk_byte_V65 : faultOf (step (idle ⟨0, 0, 0, 0, 0, 0⟩ 0x00)) = some (.invalidOpcode 0x00 0) := by decide
theorem test_mem_failure_V66 : faultOf (step (hostAct (idle ⟨0x4000, 0, 0, 0, 0, 0⟩ 0xEA) (.setFailing (some 7)))) =
    some (.memFailure (.raised 7)) := by decide
theorem test_fetch_access_V68 : (cycle (idle (regs 0 0 0) 0xEA)).access = some (.read 0x0200) := by decide
theorem test_commit_access_V68 : (cycle (inWindow (regs 0 0 0) 0xEA)).access = none := by decide
theorem test_reset_with_fetch_word : (nextOf (step (State.reset.withFetchWord 8 0x4A))).map (·.ip) =
    some (some ⟨0x4A, 1⟩) := by decide
theorem test_write_keeps_order : Memory.write [(1, 0x11#8), (9, 0x99#8)] 5 0x55 =
    [(1, 0x11#8), (5, 0x55#8), (9, 0x99#8)] := by decide

/-! ## Witnesses: the hypotheses of the statements can be met, clause by clause -/

theorem fetchReads_idle (r : Regs) (b : Byte) : FetchReads (idle r b) b :=
  ⟨rfl, by simp [idle, placeFetchByte, State.resetWith, MemIface.empty, Memory.read_write]⟩

theorem undefined_02 : Undefined 0x02 := by intro i; cases i <;> decide

theorem witness_ResetMeetsInvariant : Memory.wf [(0, 0xEA#8), (65535, 0x18#8)] = true := by decide
theorem witness_StepKeepsInvariant :
    Inv (idle (regs 0 0 0) 0xEA) ∧ step (idle (regs 0 0 0) 0xEA) = .next (afterFetch (idle (regs 0 0 0) 0xEA) 0xEA) ∧
    Inv (inWindow (regs 0 0 0) 0xEA) ∧
    step (inWindow (regs 0 0 0) 0xEA) = .next { inWindow (regs 0 0 0) 0xEA with ip := none } :=
  ⟨⟨rfl, rfl⟩, rfl, ⟨rfl, rfl⟩, rfl⟩
theorem witness_HostActionsKeepInvariant :
    Inv (inWindow (regs 0 0 0) 0xEA) ∧ ResetsWf [.host (.reset (regs 0 0 0) MemIface.empty)] ∧
    ResetsWf [.host (.unmapByte 5)] := by
  refine ⟨⟨rfl, rfl⟩, fun i m h => ?_, fun i m h => ?_⟩
  · simp only [List.mem_singleton, Event.host.injEq, HostAction.reset.injEq] at h
    rw [h.2]; rfl
  · simp at h
theorem witness_DrivenRunKeepsInvariant :
    Inv (Driven.mk (idle (regs 0 0 0) 0x02) []).state ∧ ResetsWf [.tick, .host (.storeByte 3 0xEA), .tick] := by
  refine ⟨⟨rfl, rfl⟩, fun i m h => ?_⟩
  simp at h
theorem witness_StepEndsInOneOfThreeOutcomes :
    Inv (idle (regs 0 0 0) 0xEA) ∧ Inv (inWindow (regs 0 0 0) 0xEA) ∧ Inv (idle (regs 0 0 0) 0x02) ∧ Inv State.reset :=
  ⟨⟨rfl, rfl⟩, ⟨rfl, rfl⟩, ⟨rfl, rfl⟩, ⟨rfl, rfl⟩⟩
theorem witness_StepRunsDecodedInstruction :
    (idle (regs 0 0 0) 0x4A).ip = none ∧ FetchReads (idle (regs 0 0 0) 0x4A) 0x4A ∧ Instr.wf .lsrA = true ∧
    decode [0x4A, 0x00] = .ok (.lsrA, [0x00]) := ⟨rfl, fetchReads_idle _ _, rfl, rfl⟩
theorem witness_SchedulerChoosesByInstructionInProgress :
    (idle (regs 0 0 0) 0xEA).ip = none ∧
    ({ idle (regs 0 0 0) 0xEA with ip := some ⟨0xEA, 0⟩ } : State).ip = some ⟨0xEA, 0⟩ ∧
    (inWindow (regs 0 0 0) 0xEA).ip = some ⟨0xEA, 1⟩ ∧ lookupEntry 0xEA = some ⟨.nop, .implied, 2⟩ :=
  ⟨rfl, rfl, rfl, rfl⟩
theorem witness_FetchCycleReadsLooksUpAdvances :
    FetchFails (hostAct (idle (regs 0 0 0) 0xEA) (.setFailing (some 0))) (.raised 0) ∧
    FetchFails State.reset (.unlisted 0) ∧
    (FetchReads (idle (regs 0 0 0) 0x02) 0x02 ∧ lookupEntry 0x02 = none) ∧
    (FetchReads (idle ⟨0xFFFF, 0, 0, 0, 0, 0⟩ 0xEA) 0xEA ∧ lookupEntry 0xEA ≠ none) :=
  ⟨.inl ⟨0, rfl, rfl⟩, .inr ⟨rfl, rfl, rfl⟩, ⟨fetchReads_idle _ _, rfl⟩, ⟨fetchReads_idle _ _, by decide⟩⟩
theorem witness_InCommit (i : Instr) : InCommit (inWindow (regs 0 0 0) (opcodeOf i)) i := rfl
theorem witness_FetchReads (i : Instr) :
    (idle (regs 0 0 0) (opcodeOf i)).ip = none ∧ FetchReads (idle (regs 0 0 0) (opcodeOf i)) (opcodeOf i) :=
  ⟨rfl, fetchReads_idle _ _⟩
theorem witness_CommitAppliesHandlerAtOnce :
    InCommit (inWindow (regs 0 0 0) 0xE8) .inx ∧ (idle (regs 0 0 0) 0xE8).ip = none ∧
    step (idle (regs 0 0 0) 0xE8) = .next (afterFetch (idle (regs 0 0 0) 0xE8) 0xE8) := ⟨rfl, rfl, rfl⟩
theorem witness_CommitSeesHostWritesSinceFetch :
    (idle (regs 0 0x05 0) 0xE8).ip = none ∧ FetchReads (idle (regs 0 0x05 0) 0xE8) (opcodeOf .inx) ∧
    ∀ h ∈ [HostAction.writeReg .x 0x7F, HostAction.storeByte 0x0200 0x02], h.isReset = false :=
  ⟨rfl, fetchReads_idle _ _, by decide⟩
theorem witness_TwoStepsPerInstruction :
    (idle ⟨0xFFFF, 0, 0, 0, 0, 0⟩ 0xF8).ip = none ∧ FetchReads (idle ⟨0xFFFF, 0, 0, 0, 0, 0⟩ 0xF8) (opcodeOf .sed) :=
  ⟨rfl, fetchReads_idle _ _⟩
theorem witness_PcMovesOnlyByFetchIncrement :
    step (idle ⟨0xFFFF, 0, 0, 0, 0, 0⟩ 0xEA) = .next (afterFetch (idle ⟨0xFFFF, 0, 0, 0, 0, 0⟩ 0xEA) 0xEA) ∧
    step (inWindow (regs 0 0 0) 0xEA) = .next { inWindow (regs 0 0 0) 0xEA with ip := none } ∧
    (HostAction.storeByte 0 0).isReset = false ∧ (∀ v, HostAction.storeByte 0 0 ≠ .writePc v) ∧
    FetchReads (idle (regs 0 0 0) 0x02) 0x02 ∧ Undefined 0x02 :=
  ⟨rfl, rfl, rfl, fun _ h => HostAction.noConfusion h, fetchReads_idle _ _, undefined_02⟩
theorem witness_StraightLineRunCompletes :
    ∃ s : State, s.ip = none ∧ s.mem.failing = none ∧ s.regs.pc = 0xFFFF ∧
      ∀ j < 2, ∃ i : Instr, s.mem.cells.read (s.regs.pc + BitVec.ofNat 16 j) = some (opcodeOf i) := by
  refine ⟨⟨⟨0xFFFF, 0, 0, 0, 0, 0⟩, none, ⟨[(0, 0xE8), (65535, 0x4A)], none⟩⟩, rfl, rfl, rfl, fun j hj => ?_⟩
  interval_cases j
  · exact ⟨.lsrA, rfl⟩
  · exact ⟨.inx, rfl⟩

theorem nops_wf (n lo : Nat) (h : lo + n ≤ 65536) : Memory.wfFrom lo (nops lo n) = true := by
  induction n generalizing lo with
  | zero => rfl
  | succ n ih =>
    have h1 : lo < Config.addressSpace := show lo < 65536 by omega
    simp only [nops, Memory.wfFrom, Bool.and_eq_true, decide_eq_true_eq]
    exact ⟨⟨Nat.le_refl _, h1⟩, ih _ (by omega)⟩
theorem nops_find (n lo k : Nat) :
    Memory.find (nops lo n) k = if lo ≤ k ∧ k < lo + n then some 0xEA#8 else none := by
  induction n generalizing lo with
  | zero => simp [nops, Memory.find]
  | succ n ih =>
    simp only [nops, Memory.find, ih]
    split_ifs <;> first | rfl | omega
theorem witness_DefinedTotalMemoryRunsForever :
    ∃ s : State, Inv s ∧ MemTotal s.mem ∧ AllDefined s.mem := by
  refine ⟨State.resetWith (regs 0 0 0) ⟨nops 0 65536, none⟩, ⟨rfl, nops_wf _ _ (by omega)⟩, ⟨rfl, fun a => ?_⟩,
    fun a b h => ?_⟩
  · have := a.isLt
    rw [State.resetWith, Memory.read, nops_find, if_pos (by omega)]
    rfl
  · rw [State.resetWith, Memory.read, nops_find] at h
    split_ifs at h
    cases h
    decide

theorem witness_OpcodeFetchIsTheOnlyAccess :
    (idle (regs 0 0 0) 0xE8).ip = none ∧ FetchReads (idle (regs 0 0 0) 0xE8) (opcodeOf .inx) ∧
    step (inWindow (regs 0 0 0) 0xEA) = .next { inWindow (regs 0 0 0) 0xEA with ip := none } :=
  ⟨rfl, fetchReads_idle _ _, rfl⟩
theorem witness_FetchSeesMemoryAtItsOwnCycle :
    State.reset.ip = none ∧ State.reset.mem.failing = none ∧ InCommit (inWindow (regs 0 0 0) 0xE8) .inx ∧
    step (inWindow (regs 0 0 0) 0xEA) = .next { inWindow (regs 0 0 0) 0xEA with ip := none } := ⟨rfl, rfl, rfl, rfl⟩
theorem witness_InvalidOpcode :
    (idle (regs 0 0 0) 0x02).ip = none ∧ FetchReads (idle (regs 0 0 0) 0x02) 0x02 ∧ Undefined 0x02 :=
  ⟨rfl, fetchReads_idle _ _, undefined_02⟩
theorem witness_ConditionIsRaisedAgainForEver :
    step (idle (regs 0 0 0) 0x02) = .fault (.invalidOpcode 0x02 0x0200) ∧
    step State.reset = .fault (.memFailure (.unlisted 0)) := ⟨rfl, rfl⟩
theorem witness_MemFailureExactlyOnFailedRead :
    step (hostAct (idle (regs 0 0 0) 0xEA) (.setFailing (some 7))) = .fault (.memFailure (.raised 7)) ∧
    step State.reset = .fault (.memFailure (.unlisted 0)) := ⟨rfl, rfl⟩
theorem witness_OnlyStrayInstructionInProgressIsRefused :
    Inv (inWindow (regs 0 0 0) 0xEA) ∧ step (inWindow (regs 0 0 0) 0x02) = .refused (.strayInProgress 0x02 1) :=
  ⟨⟨rfl, rfl⟩, rfl⟩
theorem witness_PortsShowTheCycle :
    step (idle (regs 0 0 0) 0x02) = .fault (.invalidOpcode 0x02 0x0200) := rfl
theorem witness_flag_and_register_frames :
    Flag.V ≠ .Z ∧ Flag.V ≠ .N ∧ Flag.C ∉ flagsWritten .inx ∧ Reg8.y ≠ .p ∧ Reg8.y ∉ regsWritten .lsrA ∧
    Reg8.a ∈ regsWritten .lsrA ∧ Reg8.x ∈ regsWritten .inx := by decide
theorem witness_accumulator_and_index : Instr.inx ≠ .lsrA ∧ Instr.lsrA ≠ .inx ∧ Reg8.a ≠ .x := by decide
theorem witness_Lsr8 : (0x7F#8).toNat ≤ 0x7F ∧ (0x00#8).toNat ≤ 0x7F := by decide
theorem witness_HostBetweenFetchAndCommit :
    InCommit (inWindow (regs 0 0 0) 0xE8) .inx ∧ InCommit (inWindow (regs 0 0 0) 0x4A) .lsrA ∧
    (idle (regs 0 0 0) 0xE8).ip = none ∧ FetchReads (idle (regs 0 0 0) 0xE8) (opcodeOf .inx) ∧
    (HostAction.writePc 0).isReset = false := ⟨rfl, rfl, rfl, fetchReads_idle _ _, rfl⟩
theorem witness_InxIncrementsX :
    (0x00#8).toNat ≤ 0x7E ∧ (0x7E#8).toNat ≤ 0x7E ∧ (0x7F ≤ (0x7F#8).toNat ∧ (0x7F#8).toNat ≤ 0xFE) ∧
    (0x7F ≤ (0xFE#8).toNat ∧ (0xFE#8).toNat ≤ 0xFE) ∧ (0xFF#8).toNat = 0xFF := by decide
theorem witness_DecodeIsExactMatch :
    FetchReads (idle (regs 0 0 0) 0xD8) 0xD8 ∧ decodeByte 0xD8 = .ok .cld ∧
    FetchReads (idle (regs 0 0 0) 0xE9) 0xE9 ∧ decodeByte 0xE9 = .error (.noEntry 0xE9) :=
  ⟨fetchReads_idle _ _, rfl, fetchReads_idle _ _, rfl⟩
/-- The ends of the ranges of R56, and any byte can be the one fetched. -/
theorem witness_OtherBytesAreInvalidOpcode :
    (∀ b : Byte, (idle (regs 0 0 0) b).ip = none ∧ FetchReads (idle (regs 0 0 0) b) b) ∧
    ∀ b ∈ [0x00#8, 0x17, 0x19, 0x37, 0x39, 0x49, 0x4B, 0xD7, 0xD9, 0xE7, 0xE9, 0xEB, 0xF7, 0xF9, 0xFF],
      b.toNat ≤ 0x17 ∨ (0x19 ≤ b.toNat ∧ b.toNat ≤ 0x37) ∨ (0x39 ≤ b.toNat ∧ b.toNat ≤ 0x49) ∨
      (0x4B ≤ b.toNat ∧ b.toNat ≤ 0xD7) ∨ (0xD9 ≤ b.toNat ∧ b.toNat ≤ 0xE7) ∨ b.toNat = 0xE9 ∨
      (0xEB ≤ b.toNat ∧ b.toNat ≤ 0xF7) ∨ 0xF9 ≤ b.toNat :=
  ⟨fun _ => ⟨rfl, fetchReads_idle _ _⟩, by decide⟩

end Sys2Proof.Tests
end

/-! The proof of O24: when a step raises InvalidOpcode, and what each output port of a cycle shows
(spec/00_scope.md R7, spec/60_exceptions.md R90, R91). -/

section

namespace Sys2Proof.Machine

open Sys2Proof.Certificates

theorem lookupEntry_eq_none_iff (b : Byte) : lookupEntry b = none ↔ Undefined b := by
  rw [← Option.not_isSome_iff_eq_none, lookupEntry_isSome_iff, not_exists, Undefined]

/-- A fetch cycle raises InvalidOpcode only for an answered byte without an entry, and reports that byte and `pc`. -/
theorem fetchOutcome_invalidOpcode_iff (s : State) (r : Answer) (b : Byte) (a : Addr) :
    fetchOutcome s r = .fault (.invalidOpcode b a) ↔ r = .byte b ∧ lookupEntry b = none ∧ a = s.regs.pc := by
  cases r with
  | failure e => simp [fetchOutcome, raiseMemFailure]
  | byte c =>
    cases hc : lookupEntry c with
    | none =>
      simp only [fetchOutcome, hc, raiseInvalidOpcode, Host.Outcome.fault.injEq, Fault.invalidOpcode.injEq,
        Answer.byte.injEq]
      exact ⟨fun ⟨hb, ha⟩ => ⟨hb, hb ▸ hc, ha.symm⟩, fun ⟨hb, _, ha⟩ => ⟨hb, ha.symm⟩⟩
    | some e =>
      simp only [fetchOutcome, hc, Answer.byte.injEq, reduceCtorEq, false_iff]
      rintro ⟨rfl, hb, -⟩
      simp [hc] at hb

/-- A step raises InvalidOpcode exactly when its fetch cycle reads an undefined byte (R91). -/
theorem step_invalidOpcode_iff (s : State) (b : Byte) (a : Addr) :
    step s = .fault (.invalidOpcode b a) ↔ s.ip = none ∧ FetchReads s b ∧ Undefined b ∧ a = s.regs.pc := by
  have fetch (h : s.ip = none) :
      step s = .fault (.invalidOpcode b a) ↔ FetchReads s b ∧ Undefined b ∧ a = s.regs.pc := by
    rw [step_of_ip_none h, fetchOutcome_invalidOpcode_iff, MemIface.answer_byte_iff, lookupEntry_eq_none_iff,
      FetchReads]
  constructor
  · intro h
    have hip := ip_none_of_step_fault h
    exact ⟨hip, (fetch hip).mp h⟩
  · rintro ⟨hip, h⟩
    exact (fetch hip).mpr h

/-- The memory ports follow the cycle's access, whatever the outcome. -/
theorem cyclePorts_memory (c : Cycle) :
    (cyclePorts c).memRd = (accessPorts c.access).memRd ∧ (cyclePorts c).memWr = (accessPorts c.access).memWr ∧
    (cyclePorts c).memAddr = (accessPorts c.access).memAddr ∧
    (cyclePorts c).memWdata = (accessPorts c.access).memWdata := by
  unfold cyclePorts
  split <;> exact ⟨rfl, rfl, rfl, rfl⟩

/-- The fault ports follow the cycle's outcome: they carry what an InvalidOpcode carries. -/
theorem cyclePorts_of_invalidOpcode {c : Cycle} {b : Byte} {a : Addr}
    (h : c.outcome = .fault (.invalidOpcode b a)) :
    (cyclePorts c).faultInvalidOpcode = true ∧ (cyclePorts c).faultOpcode = some b ∧
    (cyclePorts c).faultPc = some a := by
  simp [cyclePorts, h]

theorem accessPorts_faultInvalidOpcode (x : Option Access) : (accessPorts x).faultInvalidOpcode = false := by
  obtain _ | ⟨_ | _⟩ := x <;> rfl

theorem cyclePorts_faultInvalidOpcode_iff (c : Cycle) :
    (cyclePorts c).faultInvalidOpcode = true ↔ ∃ b a, c.outcome = .fault (.invalidOpcode b a) := by
  refine ⟨fun h => ?_, fun ⟨b, a, h⟩ => (cyclePorts_of_invalidOpcode h).1⟩
  unfold cyclePorts at h
  split at h
  case h_1 b a hout => exact ⟨b, a, hout⟩
  all_goals simp [accessPorts_faultInvalidOpcode] at h

/-- The memory ports of a step: one read at `pc` in a fetch cycle, nothing in any other (20_memory.md R34). -/
theorem cyclePorts_cycle_memory (s : State) :
    (cyclePorts (cycle s)).memRd = s.ip.isNone ∧ (cyclePorts (cycle s)).memWr = false ∧
    (cyclePorts (cycle s)).memAddr = (if s.ip = none then some s.regs.pc else none) ∧
    (cyclePorts (cycle s)).memWdata = none := by
  obtain ⟨hrd, hwr, haddr, hwdata⟩ := cyclePorts_memory (cycle s)
  rw [hrd, hwr, haddr, hwdata, cycle_access]
  cases s.ip with
  | none => exact ⟨rfl, rfl, rfl, rfl⟩
  | some q => exact ⟨rfl, rfl, rfl, rfl⟩

theorem cyclePorts_cycle_faultInvalidOpcode_iff (s : State) :
    (cyclePorts (cycle s)).faultInvalidOpcode = true ↔ ∃ b, s.ip = none ∧ FetchReads s b ∧ Undefined b := by
  rw [cyclePorts_faultInvalidOpcode_iff]
  constructor
  · rintro ⟨b, a, h⟩
    obtain ⟨hip, hread, hundef, -⟩ := (step_invalidOpcode_iff s b a).mp h
    exact ⟨b, hip, hread, hundef⟩
  · rintro ⟨b, hip, hread, hundef⟩
    exact ⟨b, s.regs.pc, (step_invalidOpcode_iff s b _).mpr ⟨hip, hread, hundef, rfl⟩⟩

/-- Settles O24: the memory ports follow the cycle's access, the fault ports its outcome, and a step raises
InvalidOpcode exactly on an undefined byte read in a fetch cycle. -/
theorem portsShowTheCycle : Obligations.PortsShowTheCycle := by
  intro s
  obtain ⟨hrd, hwr, haddr, hwdata⟩ := cyclePorts_cycle_memory s
  exact ⟨hwr, hwdata, hrd, haddr, cyclePorts_cycle_faultInvalidOpcode_iff s,
    fun _ _ h => (cyclePorts_of_invalidOpcode h).2⟩

end Sys2Proof.Machine

end

/-! What the handlers do to the registers and the flags: which flags an instruction leaves, that no handler reads
`p`, and that a register the instruction does not write passes through it (spec/10_state.md, the read and write
matrix; spec/40_step_and_dispatch.md R75 to R78). -/

section

namespace Sys2Proof.Machine

open Sys2Proof.Certificates

/-- The eight flags are all of `p`. -/
theorem eq_of_getFlag_eq {p q : Byte} (h : ∀ f, getFlag p f = getFlag q f) : p = q := by
  refine BitVec.eq_of_getLsbD_eq fun k hk => ?_
  have hflag : ∃ f, flagPos f = k := by
    interval_cases k
    exacts [⟨.C, rfl⟩, ⟨.Z, rfl⟩, ⟨.I, rfl⟩, ⟨.D, rfl⟩, ⟨.B, rfl⟩, ⟨.U, rfl⟩, ⟨.V, rfl⟩, ⟨.N, rfl⟩]
  obtain ⟨f, rfl⟩ := hflag
  exact h f

theorem eq_setFlag_of_agree {p q : Byte} {f : Flag} (h : ∀ g, g ≠ f → getFlag q g = getFlag p g) :
    q = setFlag p f (getFlag q f) := by
  refine eq_of_getFlag_eq fun g => ?_
  rw [getFlag_setFlag]
  split_ifs with hg
  · rw [hg]
  · exact h g hg

/-- The byte that holds, for each flag listed, the value `v` gives it. -/
def packFlags (v : Flag → Bool) : List Flag → Byte
  | []      => 0#8
  | f :: fs => setFlag (packFlags v fs) f (v f)

theorem getFlag_packFlags (v : Flag → Bool) {fs : List Flag} {f : Flag} (h : f ∈ fs) :
    getFlag (packFlags v fs) f = v f := by
  induction fs with
  | nil => cases h
  | cons g gs ih =>
    rw [packFlags, getFlag_setFlag]
    split_ifs with hf
    · rw [hf]
    · exact ih ((List.mem_cons.mp h).resolve_left hf)

theorem toNat_inc8 (v : Byte) : (inc8 v).toNat = (v.toNat + 1) % 256 := by
  simp [inc8, BitVec.toNat_add]

theorem toNat_lsr8 (v : Byte) : (lsr8 v).toNat = v.toNat / 2 := by
  simp [lsr8, BitVec.toNat_ushiftRight, Nat.shiftRight_eq_div_pow]

variable (i : Instr) (r : Regs) (f : Flag)

/-- The flags after INX: Z and N from the new `x`, the others as before (43_increment.md R85). -/
theorem getFlag_handlerRegs_inx :
    getFlag (handlerRegs .inx r).p f =
      if f = .N then (inc8 r.x).getLsbD 7 else if f = .Z then inc8 r.x == 0#8 else getFlag r.p f :=
  getFlag_setNZ r.p (inc8 r.x) f

/-- The flags after LSR A: C the bit shifted out, Z and N from the new `a`, the others as before (44_shift.md R86). -/
theorem getFlag_handlerRegs_lsrA :
    getFlag (handlerRegs .lsrA r).p f =
      if f = .N then (lsr8 r.a).getLsbD 7 else if f = .Z then lsr8 r.a == 0#8
      else if f = .C then lsr8Carry r.a else getFlag r.p f :=
  (getFlag_setNZ (setFlag r.p .C (lsr8Carry r.a)) (lsr8 r.a) f).trans (by rw [getFlag_setFlag])

variable {i f}

theorem getFlag_handlerRegs_of_not_mem (h : f ∉ flagsWritten i) :
    getFlag (handlerRegs i r).p f = getFlag r.p f := by
  cases i with
  | inx => simp_all [flagsWritten, getFlag_handlerRegs_inx]
  | lsrA => simp_all [flagsWritten, getFlag_handlerRegs_lsrA]
  | nop => rfl
  | clc | sec | cld | sed => simp_all [flagsWritten, handlerRegs]

/-- The value of a written flag does not depend on the old `p`: no instruction reads a flag. -/
theorem getFlag_handlerRegs_replace_p (q : Byte) (h : f ∈ flagsWritten i) :
    getFlag (handlerRegs i { r with p := q }).p f = getFlag (handlerRegs i r).p f := by
  cases i with
  | inx =>
    have hf : f = .Z ∨ f = .N := by simpa [flagsWritten] using h
    rcases hf with rfl | rfl <;> simp [getFlag_handlerRegs_inx]
  | lsrA =>
    have hf : f = .C ∨ f = .Z ∨ f = .N := by simpa [flagsWritten] using h
    rcases hf with rfl | rfl | rfl <;> simp [getFlag_handlerRegs_lsrA]
  | nop => cases h
  | clc | sec | cld | sed => simp_all [flagsWritten, handlerRegs]

/-- Nothing besides `p` depends on the old `p`. -/
theorem handlerRegs_replace_p (i : Instr) (q : Byte) :
    handlerRegs i { r with p := q } = { handlerRegs i r with p := (handlerRegs i { r with p := q }).p } := by
  cases i <;> rfl

/-- Replacing one flag before a handler changes at most that flag after it. -/
theorem handlerRegs_setFlag (i : Instr) (f : Flag) (d : Bool) :
    ∃ d', handlerRegs i { r with p := setFlag r.p f d } =
      { handlerRegs i r with p := setFlag (handlerRegs i r).p f d' } := by
  have agree : ∀ g, g ≠ f → getFlag (handlerRegs i { r with p := setFlag r.p f d }).p g =
      getFlag (handlerRegs i r).p g := by
    intro g hg
    by_cases hw : g ∈ flagsWritten i
    · exact getFlag_handlerRegs_replace_p r _ hw
    · rw [getFlag_handlerRegs_of_not_mem _ hw, getFlag_handlerRegs_of_not_mem _ hw, getFlag_setFlag, if_neg hg]
  refine ⟨getFlag (handlerRegs i { r with p := setFlag r.p f d }).p f, ?_⟩
  rw [← eq_setFlag_of_agree agree]
  exact handlerRegs_replace_p r i _

theorem mem_regsWritten_iff {i : Instr} {k : Reg8} :
    k ∈ regsWritten i ↔ (k = .a ∧ i = .lsrA) ∨ (k = .x ∧ i = .inx) := by
  cases i <;> simp [regsWritten]

theorem set_writeFlag {k : Reg8} (hk : k ≠ .p) (v : Byte) (f : Flag) (b : Bool) :
    (r.set k v).writeFlag f b = (r.writeFlag f b).set k v := by
  cases k with
  | p => exact absurd rfl hk
  | sp | a | x | y => rfl

theorem set_writeNZ {k : Reg8} (hk : k ≠ .p) (v w : Byte) :
    (r.set k v).writeNZ w = (r.writeNZ w).set k v := by
  cases k with
  | p => exact absurd rfl hk
  | sp | a | x | y => rfl

theorem set_comm {j k : Reg8} (h : j ≠ k) (v w : Byte) : (r.set j v).set k w = (r.set k w).set j v := by
  cases j <;> cases k <;> simp_all [Regs.set]

/-- A register the instruction does not write is not read by it either: it can be replaced before or after. -/
theorem handlerRegs_set {i : Instr} {k : Reg8} (hp : k ≠ .p) (hk : k ∉ regsWritten i) (v : Byte) :
    handlerRegs i (r.set k v) = (handlerRegs i r).set k v := by
  cases i with
  | clc | sec | cld | sed => exact set_writeFlag r hp v _ _
  | nop => rfl
  | inx =>
    have hx : .x ≠ k := fun h => hk (by simp [regsWritten, h])
    have hread : (r.set k v).x = r.x := get_set_of_ne r v hx
    simp only [handlerRegs, hread]
    rw [set_comm r hx.symm, set_writeNZ _ hp]
  | lsrA =>
    have ha : .a ≠ k := fun h => hk (by simp [regsWritten, h])
    have hread : (r.set k v).a = r.a := get_set_of_ne r v ha
    simp only [handlerRegs, hread]
    rw [set_writeFlag r hp, set_comm _ ha.symm, set_writeNZ _ hp]

/-- A register the instruction does not write keeps its value: writing its old value before or after is the same. -/
theorem get_handlerRegs_of_not_mem {i : Instr} {k : Reg8} (hp : k ≠ .p) (hk : k ∉ regsWritten i) :
    (handlerRegs i r).get k = r.get k := by
  have hself : r.set k (r.get k) = r := by cases k <;> rfl
  have h := handlerRegs_set r hp hk (r.get k)
  rw [hself] at h
  rw [h, get_set_same]

/-- An instruction completes without reading or writing a register outside its row of the matrix. -/
theorem exec_of_not_mem_regsWritten {i : Instr} {k : Reg8} (hp : k ≠ .p) (hk : k ∉ regsWritten i) (s : State)
    (v : Byte) : ∃ t, exec i s = .next t ∧ t.regs.get k = s.regs.get k ∧
      exec i { s with regs := s.regs.set k v } = .next { t with regs := t.regs.set k v } := by
  refine ⟨_, exec_eq_commit i s, get_handlerRegs_of_not_mem s.regs hp hk, ?_⟩
  rw [exec_eq_commit, handlerRegs_set s.regs hp hk]
  rfl

end Sys2Proof.Machine

end

/-! What a run does besides the registers: what every step keeps, which states a step refuses, and that accesses
and conditions depend on `ip`, memory and `pc` alone (spec/40_step_and_dispatch.md R62). -/

section

namespace Sys2Proof.Machine

theorem step_of_noEntry {s : State} {q : InProgress} (hip : s.ip = some q) (he : lookupEntry q.op = none) :
    step s = .refused (.strayInProgress q.op q.cyc) := by
  simp [step, cycle, hip, he]

theorem step_of_entry {s : State} {q : InProgress} {e : Entry} (hip : s.ip = some q)
    (he : lookupEntry q.op = some e) :
    step s = if q.cyc + 1 < e.cycles then .next (advanced s q)
      else .next (commit s (handlerRegs e.handler s.regs)) := by
  rw [← exec_eq_commit]
  simp only [step, cycle, hip, he]
  split_ifs <;> rfl

theorem fetchOutcome_ne_refused (s : State) (a : Answer) (r : Refusal) : fetchOutcome s a ≠ .refused r := by
  intro h
  cases a with
  | failure e => cases h
  | byte b =>
    simp only [fetchOutcome] at h
    split at h <;> cases h

/-- A step is refused exactly where `ip` holds a byte without an entry (log 5). -/
theorem step_refused_iff (s : State) (r : Refusal) :
    step s = .refused r ↔ ∃ q, s.ip = some q ∧ lookupEntry q.op = none ∧ r = .strayInProgress q.op q.cyc := by
  constructor
  · intro h
    cases hip : s.ip with
    | none => exact absurd (step_of_ip_none hip ▸ h) (fetchOutcome_ne_refused s _ r)
    | some q =>
      cases he : lookupEntry q.op with
      | none =>
        rw [step_of_noEntry hip he] at h
        cases h
        exact ⟨q, rfl, he, rfl⟩
      | some e =>
        rw [step_of_entry hip he] at h
        split_ifs at h
  · rintro ⟨q, hip, he, rfl⟩
    exact step_of_noEntry hip he

/-- After a tick the state is the one before, or the one the step answers. -/
theorem afterStep_eq_or_next (s : State) : afterStep s = s ∨ step s = .next (afterStep s) := by
  cases h : step s with
  | next t => exact .inr (congrArg _ (afterStep_of_next h).symm)
  | fault f => exact .inl (afterStep_of_fault h)
  | refused r => exact .inl (afterStep_of_refused h)

section

variable {α : Type} {g : State → α} (hfetch : ∀ s b, g (fetched s b) = g s)
  (hadvance : ∀ s q, g (advanced s q) = g s) (hcommit : ∀ s i, g (commit s (handlerRegs i s.regs)) = g s)

include hfetch hadvance hcommit

/-- What each kind of cycle keeps, every tick keeps. -/
theorem afterStep_keeps (s : State) : g (afterStep s) = g s := by
  rcases afterStep_eq_or_next s with h | h
  · rw [h]
  · obtain ⟨-, b, -, -, ht⟩ | ⟨q, -, -, -, ht⟩ | ⟨q, e, -, -, -, ht⟩ := step_next h
    · rw [ht, hfetch]
    · rw [ht, hadvance]
    · rw [ht, hcommit]

/-- What each kind of cycle keeps, every run without host acts keeps. -/
theorem afterSteps_keeps (n : Nat) (s : State) : g (afterSteps n s) = g s := by
  induction n generalizing s with
  | zero => rfl
  | succ n ih => rw [afterSteps, ih, afterStep_keeps hfetch hadvance hcommit]

end

/-- Two states that differ in the data registers `sp`, `a`, `x`, `y`, `p` at most. -/
structure SameControl (s u : State) : Prop where
  ip  : u.ip = s.ip
  mem : u.mem = s.mem
  pc  : u.regs.pc = s.regs.pc

/-- The steps of two states are the same transition, each on its own state. -/
inductive StepsAlike (s u : State) : Prop
  | fetch (b : Byte) (hs : step s = .next (fetched s b)) (hu : step u = .next (fetched u b))
  | advance (q : InProgress) (hs : step s = .next (advanced s q)) (hu : step u = .next (advanced u q))
  | commit (i : Instr) (hs : step s = .next (commit s (handlerRegs i s.regs)))
      (hu : step u = .next (commit u (handlerRegs i u.regs)))
  | fault (f : Fault) (hs : step s = .fault f) (hu : step u = .fault f)
  | refused (r : Refusal) (hs : step s = .refused r) (hu : step u = .refused r)

namespace SameControl

variable {s u : State} (h : SameControl s u)

include h

/-- A fetch cycle looks at `pc` and at what memory answers there. -/
theorem stepsAlike_fetch (hs : s.ip = none) : StepsAlike s u := by
  have hstep := step_of_ip_none hs
  have hstep' := step_of_ip_none (h.ip.trans hs)
  rw [h.mem, h.pc] at hstep'
  cases ha : s.mem.answer s.regs.pc with
  | failure e =>
    rw [ha] at hstep hstep'
    exact .fault _ hstep hstep'
  | byte b =>
    simp only [ha, fetchOutcome] at hstep hstep'
    cases he : lookupEntry b with
    | none =>
      simp only [he, h.pc] at hstep hstep'
      exact .fault _ hstep hstep'
    | some e =>
      simp only [he] at hstep hstep'
      exact .fetch b hstep hstep'

/-- Which transition a step makes is decided by `ip`, memory and `pc`. -/
theorem stepsAlike : StepsAlike s u := by
  cases hs : s.ip with
  | none => exact h.stepsAlike_fetch hs
  | some q =>
    have hu := h.ip.trans hs
    cases he : lookupEntry q.op with
    | none => exact .refused _ (step_of_noEntry hs he) (step_of_noEntry hu he)
    | some e =>
      have hstep := step_of_entry hs he
      have hstep' := step_of_entry hu he
      split_ifs at hstep hstep'
      · exact .advance q hstep hstep'
      · exact .commit e.handler hstep hstep'

theorem faultOf_step : faultOf (step u) = faultOf (step s) := by
  cases h.stepsAlike with
  | fetch _ hs hu | advance _ hs hu | commit _ hs hu => rw [hs, hu, faultOf, faultOf]
  | fault _ hs hu | refused _ hs hu => rw [hs, hu]

theorem cycle_access : (cycle u).access = (cycle s).access := by
  rw [Machine.cycle_access, Machine.cycle_access, h.ip, h.pc]

protected theorem afterStep : SameControl (afterStep s) (afterStep u) := by
  have hsteps := h.stepsAlike
  obtain ⟨hip, hmem, hpc⟩ := h
  cases hsteps with
  | fetch b hs hu =>
    rw [afterStep_of_next hs, afterStep_of_next hu]
    exact ⟨rfl, hmem, congrArg nextPc hpc⟩
  | advance q hs hu =>
    rw [afterStep_of_next hs, afterStep_of_next hu]
    exact ⟨rfl, hmem, hpc⟩
  | commit i hs hu =>
    rw [afterStep_of_next hs, afterStep_of_next hu]
    exact ⟨rfl, hmem, by rw [commit_regs, commit_regs, (handlerRegs_frame _ _).1, (handlerRegs_frame _ _).1, hpc]⟩
  | fault f hs hu =>
    rw [afterStep_of_fault hs, afterStep_of_fault hu]
    exact ⟨hip, hmem, hpc⟩
  | refused r hs hu =>
    rw [afterStep_of_refused hs, afterStep_of_refused hu]
    exact ⟨hip, hmem, hpc⟩

/-- No data register takes part in an address. -/
protected theorem accesses (n : Nat) : accesses n u = accesses n s := by
  induction n generalizing s u with
  | zero => rfl
  | succ n ih => rw [Machine.accesses, Machine.accesses, h.cycle_access, ih h.afterStep]

/-- No data register takes part in a condition. -/
protected theorem faults (n : Nat) : faults n u = faults n s := by
  induction n generalizing s u with
  | zero => rfl
  | succ n ih => rw [Machine.faults, Machine.faults, h.faultOf_step, ih h.afterStep]

end SameControl

end Sys2Proof.Machine

end

/-! The invariant of reachable states (spec/10_state.md R26): the proofs of O2, O3, O4, O5 and O23. -/

section

namespace Sys2Proof.Safety

open Sys2Proof.Machine Sys2Proof.Certificates

/-- R26 for this table, where every entry has two cycles: a well-formed `ip` is none or a fetched opcode. -/
theorem ipWf_iff (ip : Option InProgress) :
    ipWf ip = true ↔ ip = none ∨ ∃ i, ip = some { op := opcodeOf i, cyc := 1 } := by
  constructor
  · intro h
    rcases ip with _ | ⟨op, cyc⟩
    · exact .inl rfl
    · simp only [ipWf] at h
      cases he : lookupEntry op with
      | none => simp [he] at h
      | some e =>
        obtain ⟨hop, -, hcycles⟩ := lookupEntry_some he
        have hcyc : cyc = 1 := by
          simp only [he, hcycles, Bool.and_eq_true, decide_eq_true_eq] at h
          omega
        exact .inr ⟨e.handler, by rw [hop, hcyc]⟩
  · rintro (rfl | ⟨i, rfl⟩)
    · rfl
    · simp [ipWf]

/-- The one case of `step_next` that a well-formed `ip` excludes is the intermediate cycle. -/
theorem ip_of_step_next {s t : State} (hip : ipWf s.ip = true) (h : step s = .next t) :
    t.ip = none ∨ ∃ i, t.ip = some { op := opcodeOf i, cyc := 1 } := by
  obtain ⟨-, b, -, hb, rfl⟩ | ⟨q, hq, hcyc, -, -⟩ | ⟨q, e, -, -, -, rfl⟩ := step_next h
  · obtain ⟨i, rfl⟩ := (lookupEntry_isSome_iff b).mp hb
    exact .inr ⟨i, rfl⟩
  · rcases (ipWf_iff _).mp hip with hnone | ⟨i, hi⟩
    · simp [hq] at hnone
    · simp only [hq, Option.some.injEq] at hi
      simp [hi] at hcyc
  · exact .inl rfl

theorem inv_of_step_next {s t : State} (hs : Inv s) (h : step s = .next t) : Inv t := by
  obtain ⟨hip, hmem⟩ := hs
  exact ⟨(ipWf_iff _).mpr (ip_of_step_next hip h), step_next_mem h ▸ hmem⟩

theorem inv_afterStep {s : State} (hs : Inv s) : Inv (afterStep s) := by
  rcases afterStep_eq_or_next s with h | h
  · rwa [h]
  · exact inv_of_step_next hs h

theorem inv_resetWith (init : Regs) {mem : MemIface} (h : mem.cells.wf = true) :
    Inv (State.resetWith init mem) := ⟨rfl, h⟩

theorem inv_hostAct {s : State} {a : HostAction} (hs : Inv s) (ha : ResetsWf [.host a]) : Inv (hostAct s a) := by
  obtain ⟨hip, hmem⟩ := hs
  cases a with
  | writePc v | writeReg r v | setFailing e => exact ⟨hip, hmem⟩
  | storeByte addr v => exact ⟨hip, Memory.wf_write _ _ _ hmem⟩
  | unmapByte addr => exact ⟨hip, Memory.wf_unmap _ _ hmem⟩
  | reset init mem => exact inv_resetWith init (ha init mem (List.mem_singleton.mpr rfl))

theorem resetsWf_cons {e : Event} {es : List Event} (h : ResetsWf (e :: es)) : ResetsWf [e] ∧ ResetsWf es :=
  ⟨fun init mem hm => h init mem (List.mem_cons.mpr (.inl (List.mem_singleton.mp hm))),
    fun init mem hm => h init mem (List.mem_cons_of_mem e hm)⟩

theorem inv_driveOne {d : Driven} {e : Event} (hd : Inv d.state) (he : ResetsWf [e]) :
    Inv (driveOne d e).state := by
  cases e with
  | tick => exact inv_afterStep hd
  | host a => exact inv_hostAct hd he

theorem inv_drive {d : Driven} {es : List Event} (hd : Inv d.state) (hes : ResetsWf es) :
    Inv (drive d es).state := by
  induction es generalizing d with
  | nil => exact hd
  | cons e es ih =>
    obtain ⟨he, hes⟩ := resetsWf_cons hes
    exact ih (inv_driveOne hd he) hes

theorem step_ne_refused_of_inv {s : State} (hs : Inv s) (r : Refusal) : step s ≠ .refused r := by
  intro h
  obtain ⟨q, hq, hnone, -⟩ := (step_refused_iff s r).mp h
  rcases (ipWf_iff _).mp hs.1 with hip | ⟨i, hip⟩
  · simp [hq] at hip
  · simp only [hq, Option.some.injEq] at hip
    simp [hip] at hnone

/-- Settles O3: the three kinds of a step that answers next, of which the invariant excludes the intermediate
cycle. -/
theorem stepKeepsInvariant : Obligations.StepKeepsInvariant :=
  fun _ _ hs h => ⟨inv_of_step_next hs h, ip_of_step_next hs.1 h⟩

/-- Settles O5, by induction on the events. -/
theorem drivenRunKeepsInvariant : Obligations.DrivenRunKeepsInvariant :=
  fun _ _ hd hes => inv_drive hd hes

/-- Settles O4: only stores, removals and resets reach memory, and only a reset reaches `ip`. -/
theorem hostActionsKeepInvariant : Obligations.HostActionsKeepInvariant :=
  fun _ _ hs ha => inv_hostAct hs ha

/-- Settles O2: a reset leaves no instruction in progress and the memory it binds. -/
theorem resetMeetsInvariant : Obligations.ResetMeetsInvariant :=
  ⟨inv_resetWith _ reset_memory_wf, fun init _ h => inv_resetWith init h⟩

/-- Settles O23: only an `ip` without an entry is refused, and the invariant gives every `ip` an entry. -/
theorem onlyStrayInstructionInProgressIsRefused : Obligations.OnlyStrayInstructionInProgressIsRefused :=
  ⟨step_refused_iff, fun i s => ⟨_, exec_eq_commit i s⟩, fun _ r hs => step_ne_refused_of_inv hs r⟩

end Sys2Proof.Safety

end

/-! The registers and the flags over steps and runs: the proofs of O28, O29, O31, O32, O33, O35 and O36
(spec/10_state.md R12 to R24). -/

section

namespace Sys2Proof.Machine

open Sys2Proof.Certificates

theorem sameControl_withD (s : State) (d : Bool) : SameControl s (withD s d) := ⟨rfl, rfl, rfl⟩

/-- A tick keeps the relation "differs in D at most". -/
theorem afterStep_withD (s : State) (d : Bool) : ∃ d', afterStep (withD s d) = withD (afterStep s) d' := by
  cases (sameControl_withD s d).stepsAlike with
  | fetch b hs hu => exact ⟨d, by rw [afterStep_of_next hs, afterStep_of_next hu]; rfl⟩
  | advance q hs hu => exact ⟨d, by rw [afterStep_of_next hs, afterStep_of_next hu]; rfl⟩
  | commit i hs hu =>
    obtain ⟨d', hd'⟩ := handlerRegs_setFlag s.regs i .D d
    rw [afterStep_of_next hs, afterStep_of_next hu]
    exact ⟨d', congrArg (commit s) hd'⟩
  | fault f hs hu => exact ⟨d, by rw [afterStep_of_fault hs, afterStep_of_fault hu]⟩
  | refused r hs hu => exact ⟨d, by rw [afterStep_of_refused hs, afterStep_of_refused hu]⟩

theorem afterSteps_withD (n : Nat) (s : State) (d : Bool) :
    ∃ d', afterSteps n (withD s d) = withD (afterSteps n s) d' := by
  induction n generalizing s d with
  | zero => exact ⟨d, rfl⟩
  | succ n ih =>
    obtain ⟨d₁, h₁⟩ := afterStep_withD s d
    rw [afterSteps, h₁]
    exact ih (afterStep s) d₁

/-- Settles O35: D is no part of what decides a transition, and every transition keeps "differs in D at most". -/
theorem decimalFlagIsInertOverRuns : Obligations.DecimalFlagIsInertOverRuns := fun n s d =>
  ⟨(sameControl_withD s d).accesses n, (sameControl_withD s d).faults n, afterSteps_withD n s d⟩

/-- Settles O28: reading a flag after a write, the byte of any eight values, and the flags each handler leaves. -/
theorem flagsAreIndependent : Obligations.FlagsAreIndependent := by
  refine ⟨fun p f g b => getFlag_setFlag p f g b, fun v => ?_, fun s => ?_, fun i s => ?_⟩
  · exact ⟨packFlags v [.N, .V, .U, .B, .D, .I, .Z, .C],
      fun f => getFlag_packFlags v (by cases f <;> decide)⟩
  · refine ⟨_, _, exec_eq_commit .inx s, exec_eq_commit .lsrA s, fun f => ?_, fun f => ?_⟩
    · rw [commit_regs, getFlag_handlerRegs_inx]
      cases f <;> rfl
    · rw [commit_regs, getFlag_handlerRegs_lsrA]
      cases f <;> rfl
  · exact ⟨_, exec_eq_commit i s, fun f hf => getFlag_handlerRegs_of_not_mem s.regs hf⟩

/-- Settles O32: `a` is in the row of LSR A alone, which halves it. -/
theorem accumulatorOnlyOfLsrA : Obligations.AccumulatorOnlyOfLsrA := by
  refine ⟨fun i s v hi => ?_, fun s => ⟨_, exec_eq_commit .lsrA s, toNat_lsr8 s.regs.a⟩⟩
  exact exec_of_not_mem_regsWritten (k := .a) (by decide) (by simp [mem_regsWritten_iff, hi]) s v

/-- Settles O33: `x` is in the row of INX alone, which increments it, `y` in no row, and neither decides a
transition. -/
theorem indexRegistersOnlyOfInx : Obligations.IndexRegistersOnlyOfInx := by
  refine ⟨fun i s v hi => ?_, fun s => ⟨_, exec_eq_commit .inx s, toNat_inc8 s.regs.x⟩, fun i s v => ?_,
    fun n s v w => ?_⟩
  · exact exec_of_not_mem_regsWritten (k := .x) (by decide) (by simp [mem_regsWritten_iff, hi]) s v
  · exact exec_of_not_mem_regsWritten (k := .y) (by decide) (by simp [mem_regsWritten_iff]) s v
  · have h : SameControl s { s with regs := { s.regs with x := v, y := w } } := ⟨rfl, rfl, rfl⟩
    exact h.accesses n

theorem not_mem_flagsWritten_of_inert {f : Flag} (hf : f = .I ∨ f = .B ∨ f = .U ∨ f = .V) (i : Instr) :
    f ∉ flagsWritten i := by
  rcases hf with rfl | rfl | rfl | rfl <;> cases i <;> decide

/-- Settles O36: a fetch writes `pc` and `ip`, an intermediate cycle `ip`, and no handler writes these. -/
theorem inertRegistersAndFlagsNeverChange : Obligations.InertRegistersAndFlagsNeverChange := by
  intro n s
  refine ⟨?_, ?_, fun f hf => ?_, ?_⟩
  · exact afterSteps_keeps (g := fun u => u.regs.sp) (fun _ _ => rfl) (fun _ _ => rfl)
      (fun u i => (handlerRegs_frame i u.regs).2.1) n s
  · exact afterSteps_keeps (g := fun u => u.regs.y) (fun _ _ => rfl) (fun _ _ => rfl)
      (fun u i => (handlerRegs_frame i u.regs).2.2) n s
  · exact afterSteps_keeps (g := fun u => getFlag u.regs.p f) (fun _ _ => rfl) (fun _ _ => rfl)
      (fun u i => getFlag_handlerRegs_of_not_mem u.regs (not_mem_flagsWritten_of_inert hf i)) n s
  · exact afterSteps_keeps (g := fun u => u.mem) (fun _ _ => rfl) (fun _ _ => rfl) (fun _ _ => rfl) n s

/-- Settles O29: the flags INX and LSR A write, the rows of the flag instructions, and the host's own values. -/
theorem zeroNegativeIsPostConditionOnly : Obligations.ZeroNegativeIsPostConditionOnly := by
  refine ⟨fun s => ⟨_, exec_eq_commit .inx s, getFlag_handlerRegs_inx _ _, getFlag_handlerRegs_inx _ _⟩,
    fun s => ⟨_, exec_eq_commit .lsrA s, getFlag_handlerRegs_lsrA _ _, getFlag_handlerRegs_lsrA _ _⟩,
    fun i s hi => ?_, fun s q a x y => ?_⟩
  · have hZ : .Z ∉ flagsWritten i := by rcases hi with rfl | rfl | rfl | rfl <;> decide
    have hN : .N ∉ flagsWritten i := by rcases hi with rfl | rfl | rfl | rfl <;> decide
    exact ⟨_, exec_eq_commit i s, getFlag_handlerRegs_of_not_mem _ hZ, getFlag_handlerRegs_of_not_mem _ hN⟩
  · exact ⟨{ s.regs with p := q, a := a, x := x, y := y }, rfl, rfl, rfl, rfl, rfl, rfl⟩

/-- Settles O31: what a register read gives after a write to the same and to another register. -/
theorem registerPortStoresEveryPattern : Obligations.RegisterPortStoresEveryPattern :=
  ⟨fun s r v => ⟨get_set_same s.regs r v, fun _ hk => get_set_of_ne s.regs v hk, set_pc s.regs r v, rfl, rfl⟩,
    fun _ _ => ⟨rfl, rfl, rfl⟩⟩

end Sys2Proof.Machine

end

/-! The fetch cycle against the memory interface: what a successful and a failed read make of it, and whole
instructions as pairs of steps (spec/20_memory.md R34, R37, R44, spec/40_step_and_dispatch.md R69). -/

section

namespace Sys2Proof.Machine

open Sys2Proof.Certificates

theorem fetchReads_iff (s : State) (b : Byte) : FetchReads s b ↔ s.mem.answer s.regs.pc = .byte b :=
  (MemIface.answer_byte_iff _ _ _).symm

/-- The fetch cycle of a defined byte latches it (R63). -/
theorem step_of_fetchReads {s : State} {b : Byte} (hip : s.ip = none) (hread : FetchReads s b)
    (hb : (lookupEntry b).isSome = true) : step s = .next (fetched s b) := by
  obtain ⟨e, he⟩ := Option.isSome_iff_exists.mp hb
  rw [step_of_ip_none hip, (fetchReads_iff s b).mp hread]
  simp only [fetchOutcome, he]

theorem step_of_fetchReads_opcode {s : State} {i : Instr} (hip : s.ip = none) (hread : FetchReads s (opcodeOf i)) :
    step s = .next (fetched s (opcodeOf i)) :=
  step_of_fetchReads hip hread (by simp)

/-- A byte the host stores at `pc` is the one the next fetch cycle reads (R44). -/
theorem fetchReads_storeByte_pc {s : State} (hf : s.mem.failing = none) (b : Byte) :
    FetchReads (hostAct s (.storeByte s.regs.pc b)) b :=
  ⟨hf, (Memory.read_write _ _ _ _).trans (if_pos rfl)⟩

/-- The step after the fetch of `i` is its commit. -/
theorem step_of_inCommit {s : State} {i : Instr} (h : InCommit s i) :
    step s = .next (commit s (handlerRegs i s.regs)) :=
  (step_of_ip_opcode h).trans (exec_eq_commit i s)

/-- What an interface answers with a failure: its own value, or that it holds no byte there (log 2). -/
theorem MemIface.answer_failure_iff (m : MemIface) (a : Addr) (e : MemError) :
    m.answer a = .failure e ↔
      (∃ n, m.failing = some n ∧ e = .raised n) ∨ (m.failing = none ∧ m.cells.read a = none ∧ e = .unlisted a) := by
  unfold MemIface.answer
  cases m.failing with
  | some n => simp [eq_comm]
  | none => cases m.cells.read a <;> simp [eq_comm]

/-- A fetch cycle raises MemFailure only for a failed read, and passes the failure on. -/
theorem fetchOutcome_memFailure_iff (s : State) (r : Answer) (e : MemError) :
    fetchOutcome s r = .fault (.memFailure e) ↔ r = .failure e := by
  cases r with
  | failure e' => simp [fetchOutcome, raiseMemFailure]
  | byte b => cases hb : lookupEntry b <;> simp [fetchOutcome, hb, raiseInvalidOpcode]

/-- A step raises a condition exactly when it is a fetch cycle that ends in it. -/
theorem step_fault_iff (s : State) (f : Fault) :
    step s = .fault f ↔ s.ip = none ∧ fetchOutcome s (s.mem.answer s.regs.pc) = .fault f := by
  constructor
  · intro h
    have hip := ip_none_of_step_fault h
    exact ⟨hip, step_of_ip_none hip ▸ h⟩
  · rintro ⟨hip, h⟩
    rw [step_of_ip_none hip, h]

/-- A step raises MemFailure exactly when its fetch read fails (R37). -/
theorem step_memFailure_iff (s : State) (e : MemError) :
    step s = .fault (.memFailure e) ↔ s.ip = none ∧ FetchFails s e := by
  rw [step_fault_iff, fetchOutcome_memFailure_iff, MemIface.answer_failure_iff, FetchFails]

/-- The state after both cycles of `i`: its handler applied to the registers with `pc` advanced. -/
def afterInstr (s : State) (i : Instr) : State :=
  commit (fetched s (opcodeOf i)) (handlerRegs i (fetched s (opcodeOf i)).regs)

@[simp] theorem afterInstr_ip (s : State) (i : Instr) : (afterInstr s i).ip = none := rfl
@[simp] theorem afterInstr_mem (s : State) (i : Instr) : (afterInstr s i).mem = s.mem := rfl
@[simp] theorem afterInstr_pc (s : State) (i : Instr) : (afterInstr s i).regs.pc = s.regs.pc + 1#16 :=
  (handlerRegs_frame i _).1
@[simp] theorem afterInstr_sp (s : State) (i : Instr) : (afterInstr s i).regs.sp = s.regs.sp :=
  (handlerRegs_frame i _).2.1
@[simp] theorem afterInstr_y (s : State) (i : Instr) : (afterInstr s i).regs.y = s.regs.y :=
  (handlerRegs_frame i _).2.2

theorem run_succ_of_step {s t : State} (h : step s = .next t) (n : Nat) :
    Host.Core.run core (n + 1) s = Host.Core.run core n t := by
  simp only [Host.Core.run, show core.step s = .next t from h]

/-- Two steps run one instruction (R69). -/
theorem run_two_of_fetchReads {s : State} {i : Instr} (hip : s.ip = none) (hread : FetchReads s (opcodeOf i)) :
    Host.Core.run core 2 s = .next (afterInstr s i) := by
  have hcommit : InCommit (fetched s (opcodeOf i)) i := rfl
  rw [run_succ_of_step (step_of_fetchReads_opcode hip hread), run_succ_of_step (step_of_inCommit hcommit)]
  rfl

/-- The two steps of an instruction make one read (R34). -/
theorem accesses_two_of_fetchReads {s : State} {i : Instr} (hip : s.ip = none) (hread : FetchReads s (opcodeOf i)) :
    accesses 2 s = [.read s.regs.pc] := by
  simp [accesses, cycle_access, hip, afterStep_of_next (step_of_fetchReads_opcode hip hread)]

/-- Settles O16: the access of a cycle, the two cycles of an instruction, and no step changes memory. -/
theorem opcodeFetchIsTheOnlyAccess : Obligations.OpcodeFetchIsTheOnlyAccess :=
  ⟨cycle_access, fun _ _ hip hread => accesses_two_of_fetchReads hip hread,
    fun _ _ h a => by rw [step_next_mem h]⟩

/-- Settles O18: a stored byte is what the fetch reads, and a commit takes memory as it finds it. -/
theorem fetchSeesMemoryAtItsOwnCycle : Obligations.FetchSeesMemoryAtItsOwnCycle := by
  refine ⟨fun s i hip hf => ?_, fun s i a v h => ?_, fun _ _ => step_next_mem⟩
  · exact step_of_fetchReads_opcode hip (fetchReads_storeByte_pc hf _)
  · have hstore : InCommit (hostAct s (.storeByte a v)) i := h
    have hunmap : InCommit (hostAct s (.unmapByte a)) i := h
    exact ⟨_, exec_eq_commit i s, step_of_inCommit h, step_of_inCommit hstore, step_of_inCommit hunmap⟩

/-- Settles O22: the two ways a read fails, and the fetch of a byte stored at the same `pc`. -/
theorem memFailureExactlyOnFailedRead : Obligations.MemFailureExactlyOnFailedRead := by
  refine ⟨step_memFailure_iff, fun s e i h => ?_⟩
  have hip : s.ip = none := ip_none_of_step_fault h
  have hmended : (hostAct s (.setFailing none)).mem.failing = none := rfl
  rw [afterStep_of_fault h]
  exact step_of_fetchReads_opcode hip (fetchReads_storeByte_pc hmended (opcodeOf i))

end Sys2Proof.Machine

end

/-! Runs without host acts: straight lines, their accesses, repeated conditions, and memories that never stop the
machine (spec/20_memory.md R32, R35, spec/40_step_and_dispatch.md R71, R72, spec/60_exceptions.md R95). -/

section

namespace Sys2Proof.Machine

open Sys2Proof.Certificates Sys2Proof.Safety

theorem addr_add_one_add (a : Addr) (j : Nat) : a + 1#16 + BitVec.ofNat 16 j = a + BitVec.ofNat 16 (j + 1) := by
  rw [BitVec.add_assoc, ← BitVec.ofNat_add, Nat.add_comm]

/-- Settles O14, by induction on the number of instructions: the first one, then the line from the next `pc`. -/
theorem straightLineRunCompletes : Obligations.StraightLineRunCompletes := by
  intro k
  induction k with
  | zero => exact fun s hip _ _ => ⟨s, rfl, hip, (BitVec.add_zero _).symm, rfl, rfl, rfl, rfl⟩
  | succ k ih =>
    intro s hip hf hline
    obtain ⟨i, hi⟩ := hline 0 (Nat.succ_pos k)
    have hread : FetchReads s (opcodeOf i) := ⟨hf, by rwa [BitVec.add_zero] at hi⟩
    have hrest : ∀ j < k, ∃ i' : Instr, (afterInstr s i).mem.cells.read
        ((afterInstr s i).regs.pc + BitVec.ofNat 16 j) = some (opcodeOf i') := by
      intro j hj
      rw [afterInstr_pc, addr_add_one_add]
      exact hline (j + 1) (Nat.succ_lt_succ hj)
    obtain ⟨t, hrun, htip, htpc, htsp, hty, htmem, hacc⟩ := ih (afterInstr s i) rfl hf hrest
    have hfirst := run_two_of_fetchReads hip hread
    refine ⟨t, ?_, htip, ?_, by simpa using htsp, by simpa using hty, htmem, ?_⟩
    · rw [Nat.mul_succ, Nat.add_comm, run_add _ hfirst, hrun]
    · rw [htpc, afterInstr_pc, addr_add_one_add]
    · rw [Nat.mul_succ, Nat.add_comm, accesses_add, afterSteps_of_run hfirst, hacc,
        accesses_two_of_fetchReads hip hread, List.range_succ_eq_map]
      simp [addr_add_one_add]

/-- With a total memory of defined opcodes a step of a reachable state answers next: a fetch finds a defined byte,
and a commit always completes. -/
theorem step_next_of_total {s : State} (hs : Inv s) (htotal : MemTotal s.mem) (hdef : AllDefined s.mem) :
    ∃ t, step s = .next t := by
  rcases (ipWf_iff _).mp hs.1 with hip | ⟨i, hip⟩
  · obtain ⟨hf, hall⟩ := htotal
    obtain ⟨b, hb⟩ := Option.isSome_iff_exists.mp (hall s.regs.pc)
    exact ⟨_, step_of_fetchReads hip ⟨hf, hb⟩ (hdef _ _ hb)⟩
  · exact ⟨_, step_of_inCommit hip⟩

/-- Settles O15, by induction on the number of steps: a step succeeds and keeps the invariant and memory. -/
theorem definedTotalMemoryRunsForever : Obligations.DefinedTotalMemoryRunsForever := by
  intro s hs htotal hdef n
  induction n generalizing s with
  | zero => exact ⟨s, rfl⟩
  | succ n ih =>
    obtain ⟨t, ht⟩ := step_next_of_total hs htotal hdef
    have hmem := step_next_mem ht
    rw [SafeRun, run_succ_of_step ht]
    exact ih t (inv_of_step_next hs ht) (hmem ▸ htotal) (hmem ▸ hdef)

theorem accesses_eq_filter_trajectory (n : Nat) (s : State) :
    accesses n s = ((trajectory n s).filter (fun u => u.ip.isNone)).map (fun u => .read u.regs.pc) := by
  induction n generalizing s with
  | zero => rfl
  | succ n ih =>
    rw [accesses, trajectory, cycle_access, ih]
    cases hip : s.ip <;> simp [hip]

/-- Settles O17: one cycle makes at most one access, and a run those of its fetch cycles. -/
theorem accessesOfRunAreItsFetchCycles : Obligations.AccessesOfRunAreItsFetchCycles := by
  refine ⟨fun s => ?_, accesses_eq_filter_trajectory⟩
  rw [accesses, accesses, List.append_nil, Option.length_toList]
  cases (cycle s).access <;> simp

/-- Settles O21, by induction on the number of ticks: the tick that raises a condition leaves the state. -/
theorem conditionIsRaisedAgainForEver : Obligations.ConditionIsRaisedAgainForEver := by
  intro s f h n
  have hstay := afterStep_of_fault h
  have hread : (cycle s).access = some (.read s.regs.pc) := by
    rw [cycle_access, if_pos (ip_none_of_step_fault h)]
  induction n with
  | zero => exact ⟨rfl, rfl, rfl⟩
  | succ n ih =>
    obtain ⟨hstate, hfaults, haccesses⟩ := ih
    refine ⟨?_, ?_, ?_⟩
    · rw [afterSteps, hstay, hstate]
    · rw [faults, hstay, hfaults, h]
      rfl
    · rw [accesses, hstay, haccesses, hread]
      rfl

end Sys2Proof.Machine

end

/-! The encoding: the decoder is the inverse of the opcode map, what a fetch cycle does with a byte by the decoder's
verdict, and the reading of assembler text (spec/30_encoding.md R50 to R58). -/

section

namespace Sys2Proof

@[simp] theorem decodeByte_opcodeOf (i : Instr) : decodeByte (opcodeOf i) = .ok i := by
  simp only [decodeByte, lookupEntry_opcodeOf]

theorem decodeByte_of_lookupEntry_none {b : Byte} (h : lookupEntry b = none) : decodeByte b = .error (.noEntry b) := by
  simp only [decodeByte, h]

/-- Decode is an exact match on the whole byte (R53). -/
theorem decodeByte_eq_ok_iff (b : Byte) (i : Instr) : decodeByte b = .ok i ↔ opcodeOf i = b := by
  constructor
  · intro h
    unfold decodeByte at h
    split at h
    case h_1 e he =>
      cases h
      exact (lookupEntry_some he).1
    case h_2 => cases h
  · rintro rfl
    exact decodeByte_opcodeOf i

/-- The decoder's only two verdicts on a byte. -/
theorem decodeByte_cases (b : Byte) : (∃ i, decodeByte b = .ok i) ∨ decodeByte b = .error (.noEntry b) := by
  cases he : lookupEntry b with
  | none => exact .inr (decodeByte_of_lookupEntry_none he)
  | some e => exact .inl ⟨e.handler, (decodeByte_eq_ok_iff _ _).mpr (lookupEntry_some he).1⟩

theorem decode_cons_of_decodeByte {b : Byte} {i : Instr} (h : decodeByte b = .ok i) (bs : List Byte) :
    decode (b :: bs) = .ok (i, bs) := by
  simp only [decode, h]

theorem decodeProgram_cons_eq_ok_iff (b : Byte) (bs : List Byte) (is : List Instr) :
    decodeProgram (b :: bs) = .ok is ↔ ∃ j js, is = j :: js ∧ decodeByte b = .ok j ∧ decodeProgram bs = .ok js := by
  cases hb : decodeByte b with
  | error r => simp [decodeProgram, hb]
  | ok j => cases hbs : decodeProgram bs <;> simp [decodeProgram, hb, hbs, eq_comm]

theorem encodeProgram_eq_nil_iff (is : List Instr) : encodeProgram is = [] ↔ is = [] := by
  cases is <;> simp [encodeProgram]

theorem encodeProgram_eq_cons_iff (b : Byte) (bs : List Byte) (is : List Instr) :
    encodeProgram is = b :: bs ↔ ∃ j js, is = j :: js ∧ opcodeOf j = b ∧ encodeProgram js = bs := by
  cases is <;> simp [encodeProgram]

/-- Decoding and encoding of whole byte sequences are inverse, by induction on the bytes: an instruction is one byte
long (R50), so both split at the same place. -/
theorem decodeProgram_eq_ok_iff (bs : List Byte) (is : List Instr) :
    decodeProgram bs = .ok is ↔ encodeProgram is = bs := by
  induction bs generalizing is with
  | nil => simp [decodeProgram, encodeProgram_eq_nil_iff, eq_comm (a := [])]
  | cons b bs ih => simp only [decodeProgram_cons_eq_ok_iff, encodeProgram_eq_cons_iff, decodeByte_eq_ok_iff, ih]

/-- Settles O47: the round trip of byte sequences, and the exact match of the byte at the front. -/
theorem decodeAndEncodeAreInverse : Obligations.DecodeAndEncodeAreInverse :=
  ⟨decodeProgram_eq_ok_iff, fun i rest _ => decode_cons_of_decodeByte (decodeByte_opcodeOf i) rest⟩

theorem tableByte_toNat (b : Byte) : tableByte 8 b.toNat = b := by
  rw [tableByte, Nat.mod_eq_of_lt b.isLt, BitVec.ofNat_toNat, BitVec.setWidth_eq]

/-- An opcode byte, read as a word of the opcode table, decodes to its instruction. -/
theorem decodeTableWord_opcodeOf (i : Instr) : decodeTableWord 8 (opcodeOf i).toNat = some i := by
  simp only [decodeTableWord, tableByte_toNat, decode_cons_of_decodeByte (decodeByte_opcodeOf i)]

/-- Settles O48: each word is its instruction's opcode byte. -/
theorem opcodeWordsDecode : Obligations.OpcodeWordsDecode :=
  ⟨decodeTableWord_opcodeOf .clc, decodeTableWord_opcodeOf .sec, decodeTableWord_opcodeOf .lsrA,
    decodeTableWord_opcodeOf .cld, decodeTableWord_opcodeOf .inx, decodeTableWord_opcodeOf .nop,
    decodeTableWord_opcodeOf .sed⟩

end Sys2Proof

namespace Sys2Proof.Machine

open Sys2Proof.Certificates

theorem decodeByte_eq_noEntry_iff (b : Byte) : decodeByte b = .error (.noEntry b) ↔ Undefined b := by
  rw [← lookupEntry_eq_none_iff]
  refine ⟨fun h => ?_, decodeByte_of_lookupEntry_none⟩
  cases he : lookupEntry b with
  | none => rfl
  | some e => simp [decodeByte, he] at h

/-- A fetch cycle that reads an undefined byte reports it and leaves the state (R56, 60_exceptions.md R92). -/
theorem step_of_undefined {s : State} {b : Byte} (hip : s.ip = none) (hread : FetchReads s b) (hb : Undefined b) :
    step s = .fault (.invalidOpcode b s.regs.pc) ∧ afterStep s = s :=
  have hstep := (step_invalidOpcode_iff s b _).mpr ⟨hip, hread, hb, rfl⟩
  ⟨hstep, afterStep_of_fault hstep⟩

/-- Settles O46: the exact match, and the two ends of a fetch cycle by the decoder's verdict. -/
theorem decodeIsExactMatch : Obligations.DecodeIsExactMatch := by
  refine ⟨decodeByte_eq_ok_iff, decodeByte_cases, fun s b hip hread => ⟨fun i hi => ?_, fun hb => ?_⟩⟩
  · obtain rfl := (decodeByte_eq_ok_iff b i).mp hi
    exact ⟨_, _, step_of_fetchReads_opcode hip hread, fetched_ip _ _, lookupEntry_opcodeOf i⟩
  · exact (step_of_undefined hip hread ((decodeByte_eq_noEntry_iff b).mp hb)).1

/-- Settles O49: no opcode byte lies in a range of R56. -/
theorem otherBytesAreInvalidOpcode : Obligations.OtherBytesAreInvalidOpcode := by
  intro s b hip hread hrange
  have hundef : Undefined b := by
    rintro i rfl
    cases i <;> revert hrange <;> decide
  exact step_of_undefined hip hread hundef

/-! The reader of assembler text does not see the case of letters (R57). -/

theorem isLower_iff (c : Char) : c.isLower = true ↔ 97 ≤ c.toNat ∧ c.toNat ≤ 122 := by
  simp [Char.isLower, UInt32.le_iff_toNat_le]

/-- The reader's capitals are the library's. -/
theorem upper_eq_toUpper (c : Char) : upper c = c.toUpper := by
  unfold upper
  split
  · next h => rw [Char.toUpper_eq_of_isLower ((isLower_iff c).mpr h)]
  · next h => rw [Char.toUpper_eq_of_not_isLower (mt (isLower_iff c).mp h)]

theorem upper_toLower (c : Char) : upper c.toLower = upper c := by
  rw [upper_eq_toUpper, upper_eq_toUpper, Char.toUpper_toLower_eq_toUpper]

/-- The small letter of no character but the space is the space, so small letters keep the word boundaries. -/
theorem toLower_eq_space_iff (c : Char) : c.toLower = ' ' ↔ c = ' ' := by
  by_cases hc : c.isUpper
  · have hne : c.toLower ≠ ' ' := fun h => absurd (Char.isLower_toLower_eq_isAlpha c) (by simp [h, Char.isAlpha, hc])
    have hne' : c ≠ ' ' := by rintro rfl; simp at hc
    simp [hne, hne']
  · rw [Char.toLower_eq_of_not_isUpper hc]

theorem asmWords_map_toLower (cs w : List Char) : asmWords (cs.map Char.toLower) w = asmWords cs w := by
  induction cs generalizing w with
  | nil => rfl
  | cons c cs ih => cases w <;> simp only [List.map_cons, asmWords, toLower_eq_space_iff, upper_toLower, ih]

/-- A line means the same in small letters. -/
theorem asmLine_map_toLower (cs : List Char) : asmLine (cs.map Char.toLower) = asmLine cs := by
  rw [asmLine, asmWords_map_toLower, asmLine]

theorem asmLine_asmText (i : Instr) : asmLine (asmText i) = some (.instr i) := by
  cases i <;> rfl

/-- Settles O50: the text in capitals is read back for each of the seven, and small letters change no line. -/
theorem assemblerTextReadsBack : Obligations.AssemblerTextReadsBack := fun i =>
  ⟨asmLine_asmText i, (asmLine_map_toLower _).trans (asmLine_asmText i), rfl⟩

end Sys2Proof.Machine

end

/-! The scheduler and the three kinds of cycle: how every step ends, whole instructions as a fetch and a commit, and
what moves `pc` (spec/40_step_and_dispatch.md R61 to R72): the proofs of O6 to O13. -/

section

namespace Sys2Proof.Machine

open Sys2Proof.Certificates Sys2Proof.Safety

theorem toNat_nextPc (pc : Addr) : (nextPc pc).toNat = (pc.toNat + 1) % 65536 := by
  simp [nextPc, BitVec.toNat_add]

theorem cycle_access_of_ip_none {s : State} (h : s.ip = none) : (cycle s).access = some (.read s.regs.pc) := by
  rw [cycle_access, if_pos h]

theorem cycle_access_of_inCommit {s : State} {i : Instr} (h : InCommit s i) : (cycle s).access = none := by
  rw [cycle_access, if_neg (by simp [show s.ip = some _ from h])]

/-- A fetch cycle whose read fails reports the failure and leaves the state (60_exceptions.md R97). -/
theorem step_of_fetchFails {s : State} {e : MemError} (hip : s.ip = none) (h : FetchFails s e) :
    step s = .fault (.memFailure e) ∧ afterStep s = s :=
  have hstep := (step_memFailure_iff s e).mpr ⟨hip, h⟩
  ⟨hstep, afterStep_of_fault hstep⟩

/-- What the memory interface can answer at `pc`: an opcode, an undefined byte, or a failure. -/
theorem fetchReads_or_fetchFails (s : State) :
    (∃ i, FetchReads s (opcodeOf i)) ∨ (∃ b, FetchReads s b ∧ Undefined b) ∨ ∃ e, FetchFails s e := by
  cases ha : s.mem.answer s.regs.pc with
  | failure e => exact .inr (.inr ⟨e, (MemIface.answer_failure_iff _ _ _).mp ha⟩)
  | byte b =>
    have hread := (fetchReads_iff s b).mpr ha
    by_cases hb : (lookupEntry b).isSome = true
    · obtain ⟨i, rfl⟩ := (lookupEntry_isSome_iff b).mp hb
      exact .inl ⟨i, hread⟩
    · exact .inr (.inl ⟨b, hread, (lookupEntry_eq_none_iff b).mp (Option.not_isSome_iff_eq_none.mp hb)⟩)

/-- Settles O6: the invariant leaves an idle state, whose fetch ends by the interface's answer, and a fetched
instruction, whose commit completes. -/
theorem stepEndsInOneOfThreeOutcomes : Obligations.StepEndsInOneOfThreeOutcomes := by
  intro s hs
  rcases (ipWf_iff _).mp hs.1 with hip | ⟨i, hcommit⟩
  · rcases fetchReads_or_fetchFails s with ⟨i, hread⟩ | ⟨b, hread, hb⟩ | ⟨e, he⟩
    · exact .inl ⟨i, hip, hread, step_of_fetchReads_opcode hip hread, cycle_access_of_ip_none hip⟩
    · exact .inr (.inr (.inl ⟨b, hip, hread, hb, step_of_undefined hip hread hb⟩))
    · exact .inr (.inr (.inr ⟨e, hip, he, step_of_fetchFails hip he⟩))
  · exact .inr (.inl ⟨i, _, hcommit, exec_eq_commit i s, step_of_inCommit hcommit, commit_ip _ _,
      cycle_access_of_inCommit hcommit⟩)

/-- Settles O9: the one read of a fetch cycle, and its end by the answer and the lookup. -/
theorem fetchCycleReadsLooksUpAdvances : Obligations.FetchCycleReadsLooksUpAdvances := by
  refine fun s hip => ⟨cycle_access_of_ip_none hip, fun e he => step_of_fetchFails hip he,
    fun b hread => ⟨fun hb => ?_, fun hb => ?_⟩⟩
  · exact step_of_undefined hip hread ((lookupEntry_eq_none_iff b).mp hb)
  · exact ⟨step_of_fetchReads hip hread (Option.isSome_iff_ne_none.mpr hb), toNat_nextPc s.regs.pc⟩

/-- The `Ok` end of a fetch cycle is the fetched state. -/
theorem eq_fetched_of_step_next {s t : State} (hip : s.ip = none) (h : step s = .next t) : ∃ b, t = fetched s b := by
  obtain ⟨b, -, -, ht⟩ := fetchOutcome_next (step_of_ip_none hip ▸ h)
  exact ⟨b, ht⟩

/-- Settles O10: the handler is `handlerRegs`, and the fetch before it leaves the fetched state. -/
theorem commitAppliesHandlerAtOnce : Obligations.CommitAppliesHandlerAtOnce := by
  refine ⟨fun i => ⟨handlerRegs i, fun s => ⟨exec_eq_commit i s, fun h => ?_⟩⟩, fun s t hip h => ?_⟩
  · exact ⟨step_of_inCommit h, cycle_access_of_inCommit h⟩
  · obtain ⟨b, rfl⟩ := eq_fetched_of_step_next hip h
    exact ⟨rfl, rfl⟩

theorem driveOne_tick_of_next {s t : State} (h : step s = .next t) (raised : List Fault) :
    driveOne ⟨s, raised⟩ .tick = ⟨t, raised⟩ := by
  simp [driveOne, afterStep_of_next h, h, faultOf]

/-- Settles O11: host acts that are no reset keep the latched opcode, so the second tick is the commit of the state
they made. -/
theorem commitSeesHostWritesSinceFetch : Obligations.CommitSeesHostWritesSinceFetch := by
  intro s i hs hip hread hreset
  have hfetch : step s = .next (afterFetch s (opcodeOf i)) := step_of_fetchReads_opcode hip hread
  have hcommit : InCommit (hostActs (afterFetch s (opcodeOf i)) hs) i := hostActs_ip _ hs hreset
  refine ⟨_, exec_eq_commit i _, ?_⟩
  rw [drive, driveOne_tick_of_next hfetch, drive_append, drive_map_host, drive,
    driveOne_tick_of_next (step_of_inCommit hcommit), drive]

/-- Settles O12: after one step the instruction is latched, after two it is committed. -/
theorem twoStepsPerInstruction : Obligations.TwoStepsPerInstruction := fun s i hip hread =>
  ⟨fetched s (opcodeOf i), afterInstr s i, run_succ_of_step (step_of_fetchReads_opcode hip hread) 0, by simp,
    run_two_of_fetchReads hip hread, afterInstr_ip s i, afterInstr_pc s i⟩

/-- What a step that answers next does to `pc`: a fetch advances it, no other cycle writes it. -/
theorem step_next_pc {s t : State} (h : step s = .next t) :
    t.regs.pc = if s.ip = none then s.regs.pc + 1#16 else s.regs.pc := by
  obtain ⟨hip, b, -, -, rfl⟩ | ⟨q, hip, -, -, rfl⟩ | ⟨q, e, hip, -, -, rfl⟩ := step_next h
  · rw [if_pos hip]
    rfl
  · rw [if_neg (by simp [hip]), advanced_regs]
  · rw [if_neg (by simp [hip]), commit_regs, (handlerRegs_frame _ _).1]

theorem hostAct_pc (s : State) {h : HostAction} (hr : h.isReset = false) (hw : ∀ v, h ≠ .writePc v) :
    (hostAct s h).regs.pc = s.regs.pc := by
  cases h with
  | writePc v => exact absurd rfl (hw v)
  | writeReg r v => exact set_pc s.regs r v
  | storeByte a v | unmapByte a | setFailing e => rfl
  | reset init mem => cases hr

/-- Settles O13: the `pc` of each kind of cycle, of each host act, and of an undefined byte. -/
theorem pcMovesOnlyByFetchIncrement : Obligations.PcMovesOnlyByFetchIncrement :=
  ⟨fun _ _ => step_next_pc, fun s _ => hostAct_pc s, fun _ _ => step_of_undefined⟩

theorem decodeByte_of_decode_cons {b : Byte} {bs rest : List Byte} {i : Instr} (h : decode (b :: bs) = .ok (i, rest)) :
    decodeByte b = .ok i := by
  cases hb : decodeByte b with
  | error r => simp [decode, hb] at h
  | ok j =>
    simp only [decode, hb, Except.ok.injEq, Prod.mk.injEq] at h
    rw [h.1]

/-- Settles O7: the byte that decodes to `i` is its opcode, and the two steps are its fetch and its commit. -/
theorem stepRunsDecodedInstruction : Obligations.StepRunsDecodedInstruction := by
  intro s b i rest hip hread _ hdecode
  obtain rfl := (decodeByte_eq_ok_iff b i).mp (decodeByte_of_decode_cons hdecode)
  exact ⟨step_of_fetchReads_opcode hip hread, step_of_ip_opcode rfl,
    (run_two_of_fetchReads hip hread).trans (exec_eq_commit i _).symm⟩

/-- Settles O8: the three branches of the scheduler, and the cycle count of every entry. -/
theorem schedulerChoosesByInstructionInProgress : Obligations.SchedulerChoosesByInstructionInProgress := by
  refine ⟨fun s hip => ?_, fun s q e hip he => ?_, fun b e he => (lookupEntry_some he).2.2⟩
  · rw [cycle, hip]
  · rw [exec_eq_commit]
    exact step_of_entry hip he

end Sys2Proof.Machine

end

/-! The ALU and the frame of every instruction (spec/40_step_and_dispatch.md R75 to R78): the proofs of O25, O26, O27,
O30 and O34. -/

section

namespace Sys2Proof.Machine

open Sys2Proof.Certificates

/-- Z and N after an instruction that writes a register come from the byte it wrote (R76). -/
theorem getFlag_handlerRegs_of_mem_regsWritten {i : Instr} {k : Reg8} (r : Regs) (h : k ∈ regsWritten i) :
    getFlag (handlerRegs i r).p .Z = decide ((handlerRegs i r).get k = 0#8) ∧
    getFlag (handlerRegs i r).p .N = ((handlerRegs i r).get k).getLsbD 7 := by
  rcases mem_regsWritten_iff.mp h with ⟨rfl, rfl⟩ | ⟨rfl, rfl⟩
  · exact ⟨getFlag_handlerRegs_lsrA r .Z, getFlag_handlerRegs_lsrA r .N⟩
  · exact ⟨getFlag_handlerRegs_inx r .Z, getFlag_handlerRegs_inx r .N⟩

/-- Settles O30: the rows of the matrix, that no handler writes `pc`, and that a commit keeps memory. -/
theorem everyInstructionFrame : Obligations.EveryInstructionFrame := fun i s =>
  ⟨_, exec_eq_commit i s, fun _ hf => getFlag_handlerRegs_of_not_mem s.regs hf,
    fun _ hp hk => get_handlerRegs_of_not_mem s.regs hp hk, (handlerRegs_frame i s.regs).1, rfl, fun _ => rfl,
    fun _ hk => getFlag_handlerRegs_of_mem_regsWritten s.regs hk⟩

/-- Settles O34: a written flag does not depend on the old `p`, a flag not written is kept, and nothing besides `p`
depends on `p`. -/
theorem noInstructionReadsAFlag : Obligations.NoInstructionReadsAFlag := by
  refine fun i s q => ⟨_, _, exec_eq_commit i s, exec_eq_commit i _, ?_, fun f => ?_⟩
  · have hregs : { handlerRegs i { s.regs with p := q } with p := (handlerRegs i s.regs).p } =
        handlerRegs i s.regs := by
      rw [handlerRegs_replace_p s.regs i q]
    exact congrArg (commit s) hregs
  · simp only [commit_regs]
    split_ifs with hf
    · exact getFlag_handlerRegs_replace_p s.regs q hf
    · exact getFlag_handlerRegs_of_not_mem _ hf

theorem getFlag_setNZ_Z_iff (p v : Byte) : getFlag (setNZ p v) .Z = true ↔ v = 0#8 := by
  simp

theorem getFlag_setNZ_N (p v : Byte) : getFlag (setNZ p v) .N = v.getLsbD 7 := by
  simp

/-- A zero byte has bit 7 clear, so SetNZ never sets both flags. -/
theorem not_Z_and_N_setNZ (p v : Byte) : ¬ (getFlag (setNZ p v) .Z = true ∧ getFlag (setNZ p v) .N = true) := by
  rw [getFlag_setNZ_Z_iff, getFlag_setNZ_N]
  rintro ⟨rfl, hN⟩
  simp at hN

/-- Settles O25: what SetNZ does to each flag, at the result bytes of INX and LSR A. -/
theorem setNZFollowsResultByte : Obligations.SetNZFollowsResultByte := by
  refine ⟨fun p v => ⟨getFlag_setNZ_Z_iff p v, getFlag_setNZ_N p v, not_Z_and_N_setNZ p v, fun f hZ hN => ?_⟩,
    fun s => ⟨_, _, exec_eq_commit .inx s, exec_eq_commit .lsrA s, ?_⟩⟩
  · rw [getFlag_setNZ, if_neg hN, if_neg hZ]
  · exact ⟨getFlag_setNZ_Z_iff _ (inc8 s.regs.x), getFlag_setNZ_N _ (inc8 s.regs.x),
      getFlag_setNZ_Z_iff _ (lsr8 s.regs.a), getFlag_setNZ_N _ (lsr8 s.regs.a)⟩

/-- Settles O26: the sum modulo 256, and the flags outside the row of INX. -/
theorem inc8IsPlusOneModulo256 : Obligations.Inc8IsPlusOneModulo256 :=
  ⟨toNat_inc8, by decide, by decide, fun s => ⟨_, exec_eq_commit .inx s, rfl,
    getFlag_handlerRegs_of_not_mem s.regs (by decide), getFlag_handlerRegs_of_not_mem s.regs (by decide)⟩⟩

theorem getLsbD_lsr8 (v : Byte) (k : Nat) : (lsr8 v).getLsbD k = v.getLsbD (k + 1) := by
  rw [lsr8, BitVec.getLsbD_ushiftRight, Nat.add_comm]

/-- Every byte below 0x80 is the half of its double. -/
theorem lsr8_double {r : Byte} (h : r.toNat ≤ 0x7F) : lsr8 (BitVec.ofNat 8 (2 * r.toNat)) = r := by
  apply BitVec.eq_of_toNat_eq
  rw [toNat_lsr8, BitVec.toNat_ofNat]
  omega

/-- Settles O27: a shift moves each bit down by one, and halves. -/
theorem lsr8HalvesAndCarriesBitZero : Obligations.Lsr8HalvesAndCarriesBitZero := by
  refine ⟨fun v => ⟨toNat_lsr8 v, rfl, ?_, fun k _ => getLsbD_lsr8 v k, ?_⟩, fun r hr => ⟨_, lsr8_double hr⟩,
    by decide, by decide, by decide, by decide⟩
  · rw [getLsbD_lsr8, BitVec.getLsbD_of_ge v 8 (Nat.le_refl 8)]
  · have hv := v.isLt
    rw [toNat_lsr8]
    omega

end Sys2Proof.Machine

end

/-! The InvalidOpcode exception and the record of a driven run (spec/60_exceptions.md R91 to R95): the proofs of O19
and O20. -/

section

namespace Sys2Proof.Machine

open Sys2Proof.Certificates

/-- Settles O19: a step raises InvalidOpcode exactly in a fetch cycle that reads an undefined byte at `pc`. -/
theorem invalidOpcodeExactlyOnUndefinedByte : Obligations.InvalidOpcodeExactlyOnUndefinedByte :=
  step_invalidOpcode_iff

/-- A tick that raises a condition leaves the state and appends the condition to the record. -/
theorem driveOne_tick_of_fault {d : Driven} {f : Fault} (h : step d.state = .fault f) :
    driveOne d .tick = ⟨d.state, d.raised ++ [f]⟩ := by
  simp [driveOne, afterStep_of_fault h, h, faultOf]

theorem raised_prefix_driveOne (d : Driven) (e : Event) : d.raised <+: (driveOne d e).raised := by
  cases e with
  | tick => exact List.prefix_append _ _
  | host h => exact List.prefix_rfl

/-- No event takes a condition off the record. -/
theorem raised_prefix_drive (d : Driven) (es : List Event) : d.raised <+: (drive d es).raised := by
  induction es generalizing d with
  | nil => exact List.prefix_rfl
  | cons e es ih => exact (raised_prefix_driveOne d e).trans (ih (driveOne d e))

/-- Settles O20: the tick raises InvalidOpcode and leaves the state, and the record after it is a prefix of every
later one. -/
theorem undefinedByteIsSurfacedNeverSkipped : Obligations.UndefinedByteIsSurfacedNeverSkipped := by
  intro d b hip hread hb
  have htick := driveOne_tick_of_fault (step_of_undefined hip hread hb).1
  refine ⟨by rw [htick], fun es => ?_⟩
  obtain ⟨later, hlater⟩ := raised_prefix_drive (driveOne d .tick) es
  refine ⟨later, ?_⟩
  rw [drive, ← hlater, htick, List.append_assoc, List.singleton_append]

end Sys2Proof.Machine

end

/-! Reset, and the host between the fetch and the commit of an instruction (spec/70_reset_and_hazards.md R110 to R117):
the proofs of O1, O37 and O38. -/

section

namespace Sys2Proof.Machine

open Sys2Proof.Certificates

/-- The commit of `i` after a host act short of a reset: the handler on the registers the act left (R117 (a)). -/
theorem step_hostAct_of_inCommit {s : State} {i : Instr} {h : HostAction} (hs : InCommit s i)
    (hr : h.isReset = false) :
    step (hostAct s h) = .next (commit (hostAct s h) (handlerRegs i (hostAct s h).regs)) :=
  have hcommit : InCommit (hostAct s h) i := (hostAct_ip s hr).trans hs
  step_of_inCommit hcommit

/-- No handler reads or writes `pc`: it can be replaced before or after (R117 (b)). -/
theorem handlerRegs_replace_pc (i : Instr) (r : Regs) (v : Addr) :
    handlerRegs i { r with pc := v } = { handlerRegs i r with pc := v } := by
  cases i <;> rfl

/-- A `pc` written in the window goes through the commit, which is otherwise as it was. -/
theorem step_writePc_of_inCommit {s : State} {i : Instr} (hs : InCommit s i) (v : Addr) :
    step (hostAct s (.writePc v)) = .next (commit s { handlerRegs i s.regs with pc := v }) := by
  rw [step_hostAct_of_inCommit hs rfl, ← handlerRegs_replace_pc]
  rfl

/-- Settles O37: the commit after each write of the host, the fetched state a read sees, and that only a reset
reaches `ip`. -/
theorem hostBetweenFetchAndCommit : Obligations.HostBetweenFetchAndCommit := by
  refine ⟨fun s i v hs => ?_, fun s v hs => ?_, fun s v hs => ?_, fun s i q hs => ?_, fun s i hip hread => ?_,
    fun s h hr => hostAct_ip s hr⟩
  · exact ⟨_, step_of_inCommit hs, step_writePc_of_inCommit hs v, cycle_access_of_ip_none rfl⟩
  · exact ⟨_, step_hostAct_of_inCommit hs rfl, rfl⟩
  · exact ⟨_, step_hostAct_of_inCommit hs rfl, toNat_lsr8 v⟩
  · exact ⟨_, step_hostAct_of_inCommit hs rfl, fun f hf => getFlag_handlerRegs_of_not_mem _ hf⟩
  · exact ⟨_, step_of_fetchReads_opcode hip hread, rfl⟩

/-- The cycle after a reset is a fetch cycle at the bound `pc`, whatever was in progress (R111). -/
theorem cycle_access_reset (s : State) (init : Regs) (mem : MemIface) :
    (cycle (hostAct s (.reset init mem))).access = some (.read init.pc) :=
  cycle_access_of_ip_none (resetWith_ip init mem)

/-- Settles O1: a reset leaves what it binds, with no instruction in progress, so the scheduler chooses the fetch. -/
theorem resetIsNoStepAndFetchComesFirst : Obligations.ResetIsNoStepAndFetchComesFirst := fun s _ init mem =>
  ⟨rfl, schedulerChoosesByInstructionInProgress.1 _ (resetWith_ip init mem), cycle_access_reset s init mem⟩

/-- Settles O38: the fetch leaves the registers but for `pc`, and the reset binds them again with nothing in
progress. -/
theorem resetDiscardsInstructionInProgress : Obligations.ResetDiscardsInstructionInProgress :=
  fun _ _ mem hip hread => ⟨_, step_of_fetchReads_opcode hip hread, rfl, cycle_access_reset _ _ mem⟩

end Sys2Proof.Machine

end

/-! The seven instructions one by one, with their opcode bytes and flag masks (spec/41_flag_instructions.md to
44_shift.md, 92_eei_decisions.md D1, D3): the proofs of O39 to O45. -/

section

namespace Sys2Proof.Machine

open Sys2Proof.Certificates

/-- The commit cycle of an instruction, from what its handler does to the registers. -/
theorem exec_of_handlerRegs {i : Instr} {h : Regs → Regs} (hh : ∀ r, handlerRegs i r = h r) (s : State) :
    exec i s = .next { s with regs := h s.regs, ip := none } := by
  rw [exec_eq_commit, hh]
  rfl

/-- Both cycles of an instruction, from what its handler does to the registers. -/
theorem runsInTwoCycles_of_handlerRegs {i : Instr} {h : Regs → Regs} (hh : ∀ r, handlerRegs i r = h r) :
    RunsInTwoCycles i (opcodeOf i) h := by
  refine ⟨decode_cons_of_decodeByte (decodeByte_opcodeOf i) [], rfl, fun s hip hread => ⟨?_, ?_, ?_⟩⟩
  · exact step_of_fetchReads_opcode hip hread
  · rw [run_two_of_fetchReads hip hread, afterInstr, hh]
    rfl
  · exact accesses_two_of_fetchReads hip hread

/-! ## The flag instructions -/

/-- What holds of every flag instruction: its handler writes the one flag `f`, an effect on `p` that is the mask
operation `m`. -/
theorem writesOneFlag {i : Instr} {f : Flag} {b : Bool} {m : Byte → Byte}
    (hh : ∀ r, handlerRegs i r = r.writeFlag f b) (hm : ∀ p, setFlag p f b = m p) :
    (∀ s : State, exec i s = .next { s with regs := { s.regs with p := m s.regs.p }, ip := none }) ∧
    (∀ (p : Byte) (g : Flag), getFlag (m p) g = if g = f then b else getFlag p g) ∧
    RunsInTwoCycles i (opcodeOf i) (fun r => { r with p := m r.p }) := by
  have hregs (r : Regs) : handlerRegs i r = { r with p := m r.p } := by
    rw [hh, Regs.writeFlag, hm]
  exact ⟨exec_of_handlerRegs hregs, fun p g => by rw [← hm, getFlag_setFlag], runsInTwoCycles_of_handlerRegs hregs⟩

theorem setFlag_C_false (p : Byte) : setFlag p .C false = p &&& 0xFE#8 := rfl
theorem setFlag_C_true (p : Byte) : setFlag p .C true = p ||| 0x01#8 := rfl
theorem setFlag_D_false (p : Byte) : setFlag p .D false = p &&& 0xF7#8 := rfl
theorem setFlag_D_true (p : Byte) : setFlag p .D true = p ||| 0x08#8 := rfl

/-- Settles O39: CLC writes C alone, with 0. -/
theorem clcClearsCarryOnly : Obligations.ClcClearsCarryOnly := writesOneFlag (fun _ => rfl) setFlag_C_false

/-- Settles O40: SEC writes C alone, with 1. -/
theorem secSetsCarryOnly : Obligations.SecSetsCarryOnly := writesOneFlag (fun _ => rfl) setFlag_C_true

/-- Settles O41: CLD writes D alone, with 0. -/
theorem cldClearsDecimalOnly : Obligations.CldClearsDecimalOnly := writesOneFlag (fun _ => rfl) setFlag_D_false

/-- Settles O42: SED writes D alone, with 1. -/
theorem sedSetsDecimalOnly : Obligations.SedSetsDecimalOnly := writesOneFlag (fun _ => rfl) setFlag_D_true

/-! ## NOP -/

/-- Settles O43: the handler of NOP is the identity. -/
theorem nopChangesNothing : Obligations.NopChangesNothing :=
  have hregs (r : Regs) : handlerRegs .nop r = r := rfl
  ⟨exec_of_handlerRegs hregs, runsInTwoCycles_of_handlerRegs hregs⟩

/-! ## SetNZ in masks and in numbers -/

theorem getFlag_and (p q : Byte) (f : Flag) : getFlag (p &&& q) f = (getFlag p f && getFlag q f) :=
  BitVec.getLsbD_and

theorem getFlag_or (p q : Byte) (f : Flag) : getFlag (p ||| q) f = (getFlag p f || getFlag q f) :=
  BitVec.getLsbD_or

/-- SetNZ keeps the six bits of the mask 0x7D, puts Z at bit 1, and N stays at bit 7 where it is in the result byte. -/
theorem setNZ_eq_masks (p v : Byte) :
    setNZ p v = (p &&& 0x7D#8) ||| (if v = 0#8 then 0x02#8 else 0x00#8) ||| (v &&& 0x80#8) := by
  refine eq_of_getFlag_eq fun f => ?_
  rw [getFlag_setNZ, getFlag_or, getFlag_or, getFlag_and, getFlag_and]
  cases f <;> by_cases hv : v = 0#8 <;> simp [hv, getFlag, flagPos]

theorem getLsbD_seven (v : Byte) : v.getLsbD 7 = decide (0x80 ≤ v.toNat) :=
  BitVec.msb_eq_decide v

theorem beq_zero_eq_decide_toNat (v : Byte) : (v == 0#8) = decide (v.toNat = 0) :=
  decide_eq_decide.mpr BitVec.toNat_inj.symm

/-! ## INX -/

theorem handlerRegs_inx_eq_masks (r : Regs) :
    handlerRegs .inx r = { r with
      x := r.x + 1#8,
      p := (r.p &&& 0x7D#8) ||| (if r.x + 1#8 = 0#8 then 0x02#8 else 0x00#8) ||| ((r.x + 1#8) &&& 0x80#8) } := by
  rw [← setNZ_eq_masks]
  rfl

theorem getFlag_N_handlerRegs_inx (r : Regs) :
    getFlag (handlerRegs .inx r).p .N = decide (0x80 ≤ (r.x.toNat + 1) % 256) := by
  rw [← toNat_inc8, ← getLsbD_seven]
  exact getFlag_handlerRegs_inx r .N

theorem getFlag_Z_handlerRegs_inx (r : Regs) :
    getFlag (handlerRegs .inx r).p .Z = decide ((r.x.toNat + 1) % 256 = 0) := by
  rw [← toNat_inc8, ← beq_zero_eq_decide_toNat]
  exact getFlag_handlerRegs_inx r .Z

/-- Settles O44: SetNZ of the sum in masks, and the three ranges by the sum modulo 256. -/
theorem inxIncrementsX : Obligations.InxIncrementsX := by
  refine ⟨exec_of_handlerRegs handlerRegs_inx_eq_masks, fun s => ⟨_, exec_eq_commit .inx s, toNat_inc8 s.regs.x, ?_⟩,
    runsInTwoCycles_of_handlerRegs handlerRegs_inx_eq_masks⟩
  rw [commit_regs, getFlag_N_handlerRegs_inx, getFlag_Z_handlerRegs_inx]
  simp only [decide_eq_true_eq, decide_eq_false_iff_not]
  refine ⟨fun hlow => ?_, fun hmid => ?_, fun htop => ?_⟩ <;> omega

/-! ## LSR A -/

/-- A shifted byte has bit 7 clear. -/
theorem getLsbD_seven_lsr8 (v : Byte) : (lsr8 v).getLsbD 7 = false := by
  rw [getLsbD_lsr8, BitVec.getLsbD_of_ge v 8 (Nat.le_refl 8)]

/-- C is kept at bit 0 where it is in the operand, Z is put at bit 1, and N is none of the bits put together. -/
theorem setNZ_setFlag_C_eq_masks (p a : Byte) :
    setNZ (setFlag p .C (lsr8Carry a)) (lsr8 a) =
      (p &&& 0x7C#8) ||| (a &&& 0x01#8) ||| (if lsr8 a = 0#8 then 0x02#8 else 0x00#8) := by
  refine eq_of_getFlag_eq fun f => ?_
  rw [getFlag_setNZ, getFlag_setFlag, getLsbD_seven_lsr8, getFlag_or, getFlag_or, getFlag_and, getFlag_and]
  cases f <;> by_cases ha : lsr8 a = 0#8 <;> simp [ha, getFlag, flagPos, lsr8Carry]

theorem handlerRegs_lsrA_eq_masks (r : Regs) :
    handlerRegs .lsrA r = { r with
      a := r.a >>> 1,
      p := (r.p &&& 0x7C#8) ||| (r.a &&& 0x01#8) ||| (if r.a >>> 1 = 0#8 then 0x02#8 else 0x00#8) } :=
  congrArg (fun q => { r with a := lsr8 r.a, p := q }) (setNZ_setFlag_C_eq_masks r.p r.a)

theorem getFlag_C_handlerRegs_lsrA (r : Regs) :
    getFlag (handlerRegs .lsrA r).p .C = decide (r.a.toNat % 2 = 1) :=
  (getFlag_handlerRegs_lsrA r .C).trans (Nat.testBit_zero r.a.toNat)

theorem getFlag_Z_handlerRegs_lsrA (r : Regs) :
    getFlag (handlerRegs .lsrA r).p .Z = decide (r.a.toNat < 2) := by
  have hzero : (lsr8 r.a).toNat = 0 ↔ r.a.toNat < 2 := by
    rw [toNat_lsr8]
    omega
  rw [← decide_eq_decide.mpr hzero, ← beq_zero_eq_decide_toNat]
  exact getFlag_handlerRegs_lsrA r .Z

theorem getFlag_N_handlerRegs_lsrA (r : Regs) : getFlag (handlerRegs .lsrA r).p .N = false :=
  (getFlag_handlerRegs_lsrA r .N).trans (getLsbD_seven_lsr8 r.a)

/-- Settles O45: the shifted-out bit and SetNZ of the half in masks, and the flags by the number in `a`. -/
theorem lsrAShiftsAccumulator : Obligations.LsrAShiftsAccumulator :=
  ⟨exec_of_handlerRegs handlerRegs_lsrA_eq_masks,
    fun s => ⟨_, exec_eq_commit .lsrA s, toNat_lsr8 s.regs.a, getFlag_C_handlerRegs_lsrA s.regs,
      getFlag_Z_handlerRegs_lsrA s.regs, getFlag_N_handlerRegs_lsrA s.regs⟩,
    runsInTwoCycles_of_handlerRegs handlerRegs_lsrA_eq_masks⟩

end Sys2Proof.Machine

end
